-- ==== Sys2Proof/Word.lean ====
section
/-! DEFINITION. The unit's one word, the byte, and the frame of bytes that crosses a port (rules R7, R50, R51). -/

namespace Sys2Proof

/-- A byte, 0..255. Bit 0 is the least significant bit and the coefficient of x^0 (R7, R32, R80). -/
abbrev Byte := BitVec 8

/-- A command or response frame: a finite sequence of bytes, byte 0 first (R50). -/
abbrev Frame := List Byte

end Sys2Proof
end

