-- ==== Sys2Proof/Syntax.lean ====
section
/-! DEFINITION. The command set SSS-CS1: one constructor per row of spec/opcode_table.json (rule R53), with the
operands its frame carries (rules R57 to R64). -/

namespace Sys2Proof

/-- A point: a pair of bytes, one sample of the secret-sharing polynomial (R110). -/
structure Point where
  /-- The x-coordinate. -/
  x : Byte
  /-- The y-coordinate. -/
  y : Byte
  deriving DecidableEq, Repr

/-- A share: an index and a value (R120). Only the commands check the index. -/
structure Share where
  /-- The share's index, its x-coordinate at every byte position. -/
  index : Byte
  /-- The share's value, byte p being the y-coordinate at byte position p. -/
  value : List Byte
  deriving DecidableEq, Repr

/-- The eleven commands (R53). Counts and lengths are not operands: they are the lengths of the lists (R69). -/
inductive Instr where
  /-- FADD, opcode 0x01 (R57, R86). -/
  | fadd (a b : Byte)
  /-- FSUB, opcode 0x02 (R57, R87). -/
  | fsub (a b : Byte)
  /-- FMUL, opcode 0x03 (R57, R88). -/
  | fmul (a b : Byte)
  /-- FDIV, opcode 0x04: dividend a, divisor b (R57, R89). -/
  | fdiv (a b : Byte)
  /-- FPOW, opcode 0x05: base f, exponent e (R58, R90). -/
  | fpow (f e : Byte)
  /-- INTERP, opcode 0x10: target x (R59, R111). -/
  | interp (x : Byte) (points : List Point)
  /-- SPLIT, opcode 0x20: threshold K, share count N (R61, R121). -/
  | split (k n : Byte) (secret : List Byte)
  /-- RECSH, opcode 0x21 (R63, R123). -/
  | recsh (shares : List Share)
  /-- RECPT, opcode 0x22 (R60, R124). -/
  | recpt (points : List Point)
  /-- MKSHR, opcode 0x30 (R64, R125). -/
  | mkshr (index : Byte) (value : List Byte)
  /-- MKPT, opcode 0x31 (R64, R126). -/
  | mkpt (x y : Byte)
  deriving DecidableEq, Repr

end Sys2Proof
end

