-- ==== Sys2Proof/WellFormed.lean ====
section
/-! DEFINITION. Which commands a frame can carry: every count and every length fits its one-byte field (rules R51, R6).
Operand values are not restricted: any byte is well-formed and the command's own checks reject it (rules R61, R66). -/

namespace Sys2Proof

/-- A share record fits: its `len` field is one byte (R62). -/
def Share.wf (sh : Share) : Bool := decide (sh.value.length ≤ Config.lMax)

/-- A command that some frame carries (R51, R57 to R64). -/
def Instr.wf : Instr → Bool
  | .fadd _ _ => true
  | .fsub _ _ => true
  | .fmul _ _ => true
  | .fdiv _ _ => true
  | .fpow _ _ => true
  | .interp _ points => decide (points.length ≤ Config.pMax)
  | .split _ _ secret => decide (secret.length ≤ Config.lMax)
  | .recsh shares => decide (shares.length ≤ Config.pMax) && shares.all Share.wf
  | .recpt points => decide (points.length ≤ Config.pMax)
  | .mkshr _ value => decide (value.length ≤ Config.lMax)
  | .mkpt _ _ => true

end Sys2Proof
end

