-- ==== Sys2Proof/Decode.lean ====
section
/-! DEFINITION. The decoder of rule R66, total on every byte sequence and rejecting by name, the encoder written from the
same format tables (rules R57 to R64), and the instruction word of spec/opcode_table.json laid out as a frame. -/

namespace Sys2Proof

/-- Why a frame is no command (R55). Neither is an error kind of the commands. -/
inductive DecodeError where
  /-- Byte 0 is a reserved opcode, whatever the frame's length (R55 (a)). -/
  | badCommand
  /-- The frame is empty, or its length is not the one its format demands (R55 (b), (c)). -/
  | badFrame
  deriving DecidableEq, Repr

/-- The bytes of a point list read two by two, x before y (R59, R60). -/
def pairPoints : List Byte → List Point
  | x :: y :: rest => ⟨x, y⟩ :: pairPoints rest
  | _ => []

/-- `n` share records and nothing after them (R62, R63). `none`: a record runs past the end, or a byte is left over. -/
def takeShares : Nat → List Byte → Option (List Share)
  | 0, [] => some []
  | 0, _ :: _ => none
  | n + 1, index :: len :: rest =>
    if rest.length < len.toNat then none
    else (takeShares n (rest.drop len.toNat)).map (⟨index, rest.take len.toNat⟩ :: ·)
  | _ + 1, _ => none

/-- Format FE3 and MKPT: exactly two operand bytes (R57, R58, R64). -/
def decodeFe3 (mk : Byte → Byte → Instr) : List Byte → Except DecodeError Instr
  | [a, b] => .ok (mk a b)
  | _ => .error .badFrame

/-- Format PTX: x, n, then n points (R59). -/
def decodePtx : List Byte → Except DecodeError Instr
  | x :: n :: body => if body.length = 2 * n.toNat then .ok (.interp x (pairPoints body)) else .error .badFrame
  | _ => .error .badFrame

/-- Format PTL: n, then n points (R60). -/
def decodePtl : List Byte → Except DecodeError Instr
  | n :: body => if body.length = 2 * n.toNat then .ok (.recpt (pairPoints body)) else .error .badFrame
  | _ => .error .badFrame

/-- Format SPL: K, N, L, then L secret bytes (R61). -/
def decodeSpl : List Byte → Except DecodeError Instr
  | k :: n :: len :: body => if body.length = len.toNat then .ok (.split k n body) else .error .badFrame
  | _ => .error .badFrame

/-- Format SHL: n, then n share records (R63). -/
def decodeShl : List Byte → Except DecodeError Instr
  | n :: body =>
    match takeShares n.toNat body with
    | some shares => .ok (.recsh shares)
    | none => .error .badFrame
  | _ => .error .badFrame

/-- Format SHR: one share record (R64). -/
def decodeShr : List Byte → Except DecodeError Instr
  | index :: len :: body => if body.length = len.toNat then .ok (.mkshr index body) else .error .badFrame
  | _ => .error .badFrame

/-- `decode` (R66): the whole of byte 0 selects the command (R53, R54). It reads nothing but the frame. -/
def decode : Frame → Except DecodeError Instr
  | [] => .error .badFrame
  | op :: args =>
    match op with
    | 0x01#8 => decodeFe3 .fadd args
    | 0x02#8 => decodeFe3 .fsub args
    | 0x03#8 => decodeFe3 .fmul args
    | 0x04#8 => decodeFe3 .fdiv args
    | 0x05#8 => decodeFe3 .fpow args
    | 0x10#8 => decodePtx args
    | 0x20#8 => decodeSpl args
    | 0x21#8 => decodeShl args
    | 0x22#8 => decodePtl args
    | 0x30#8 => decodeShr args
    | 0x31#8 => decodeFe3 .mkpt args
    | _ => .error .badCommand

/-- The one-byte count or length field of a sequence (R51). It is exact up to 255, the most a frame carries. -/
def countByte {α : Type} (l : List α) : Byte := BitVec.ofNat 8 l.length

/-- A point as it crosses a port: x, then y (R110). -/
def Point.bytes (p : Point) : List Byte := [p.x, p.y]

/-- A share record: index, len, value (R62). -/
def Share.record (sh : Share) : List Byte := sh.index :: countByte sh.value :: sh.value

/-- The frame that carries a command (R57 to R64, R69). -/
def encode : Instr → Frame
  | .fadd a b => [0x01, a, b]
  | .fsub a b => [0x02, a, b]
  | .fmul a b => [0x03, a, b]
  | .fdiv a b => [0x04, a, b]
  | .fpow f e => [0x05, f, e]
  | .interp x points => 0x10 :: x :: countByte points :: points.flatMap Point.bytes
  | .split k n secret => 0x20 :: k :: n :: countByte secret :: secret
  | .recsh shares => 0x21 :: countByte shares :: shares.flatMap Share.record
  | .recpt points => 0x22 :: countByte points :: points.flatMap Point.bytes
  | .mkshr index value => 0x30 :: index :: countByte value :: value
  | .mkpt x y => [0x31, x, y]

/-- The byte at an offset of a frame; an offset past the end reads 0, as an operand word of zeros would. -/
def byteAt (f : List Byte) (offset : Nat) : Byte := f.getD offset 0

/-- How many bytes `n` share records take, walking them by their `len` fields (R63, R67). -/
def recordsLength : Nat → List Byte → Nat
  | 0, _ => 0
  | n + 1, f => 2 + (byteAt f 1).toNat + recordsLength n (f.drop (2 + (byteAt f 1).toNat))

/-- The length a frame's format demands, from byte 0 and the count and length fields (R67). `none`: reserved opcode. -/
def formatLength (f : Frame) : Option Nat :=
  match byteAt f 0 with
  | 0x01#8 => some 3
  | 0x02#8 => some 3
  | 0x03#8 => some 3
  | 0x04#8 => some 3
  | 0x05#8 => some 3
  | 0x10#8 => some (3 + 2 * (byteAt f 2).toNat)
  | 0x20#8 => some (4 + (byteAt f 3).toNat)
  | 0x21#8 => some (2 + recordsLength (byteAt f 1).toNat (f.drop 2))
  | 0x22#8 => some (2 + 2 * (byteAt f 1).toNat)
  | 0x30#8 => some (3 + (byteAt f 2).toNat)
  | 0x31#8 => some 3
  | _ => none

/-- The first `n` bytes of a number, the least significant byte first: byte 0 of the frame is bits 7..0. -/
def wordBytes : Nat → Nat → List Byte
  | 0, _ => []
  | n + 1, w => BitVec.ofNat 8 w :: wordBytes n (w / 256)

/-- The frame an opcode-table word stands for: its bytes, then bytes of zero up to the length its format demands
(log entry 12). -/
def frameOfTableWord (nbits w : Nat) : Frame :=
  let given := wordBytes ((nbits + 7) / 8) w
  match formatLength given with
  | some len => given ++ List.replicate (len - given.length) 0
  | none => given

/-- The instruction the decoder reads from an opcode-table word; `none` where it rejects the frame. -/
def decodeTableWord (nbits w : Nat) : Option Instr :=
  match decode (frameOfTableWord nbits w) with
  | .ok i => some i
  | .error _ => none

end Sys2Proof
end

