-- ==== Sys2Proof/Machine/State.lean ====
section
/-! DEFINITION. The state of the unit (file 10_state.md): the table store TBL and the executor are the unit's own; the
four port fields belong to the agents outside it and stand here because a step is a function of the state
(log entries 3, 4, 7). Plain data throughout. -/

namespace Sys2Proof.Machine

/-- A table's entries as (index, byte) cells. An index that is not listed holds no value: the entry is unspecified
(R16, R17, R23; log entry 1, DESIGN CHOICE, safe). -/
abbrev Memory := List Host.Cell

/-- The canonical form of a memory: indices strictly rising and inside the address space of R30. An unlisted entry has no
value, so no listed entry can equal it. -/
abbrev Memory.wf (m : Memory) : Prop := m.Pairwise (fun c d => c.1 < d.1) ∧ ∀ c ∈ m, c.1 < Config.tblSize

/-- The two address spaces (R30). -/
inductive TableSpace where
  /-- The powers of the generator (R14). -/
  | exp
  /-- The discrete logarithms (R16). -/
  | log
  deriving DecidableEq, Repr

/-- The table store TBL (R4, section 2 of 10_state.md). -/
structure TableStore where
  /-- `TBL_READY`: the tables have been built since reset (R15). -/
  ready : Bool
  /-- `EXP` (R14). -/
  exp : Memory
  /-- `LOG` (R16). -/
  log : Memory
  deriving DecidableEq, Repr

/-- Both tables in canonical form. -/
abbrev TableStore.wf (t : TableStore) : Prop := t.exp.wf ∧ t.log.wf

/-- The executor (R19). One step runs a command to its end, so BUSY is seen only while SPLIT waits for entropy
(log entry 2). -/
inductive Executor where
  /-- No command in flight. -/
  | idle
  /-- The command in flight and the bytes it has drawn, the first drawn first (log entry 5). -/
  | busy (cmd : Instr) (drawn : List Byte)
  deriving DecidableEq, Repr

/-- The state. -/
structure State where
  /-- TBL, the unit's only persistent state (R10, R21). -/
  tbl : TableStore
  /-- IDLE or BUSY (R19). -/
  executor : Executor
  /-- The command port: the frames the host is going to present, oldest first. The host's (R11, R19, log entry 3). -/
  commandIn : List Frame
  /-- The response port: every response frame emitted, oldest first. The host's (R19, R50, log entry 3). -/
  responseOut : List Frame
  /-- The entropy port: bytes the source has delivered and the unit has not drawn, oldest first. The source's (R18,
  log entry 4). -/
  entropyIn : List Byte
  /-- Reset is asserted; the next step takes it (R180, log entry 7). -/
  resetAsserted : Bool
  deriving DecidableEq, Repr

/-- Right after reset (R23, R180): tables not built and holding no value, executor IDLE; nothing at the ports
(log entries 3, 4, 7, DESIGN CHOICE). -/
def State.reset : State where
  tbl := { ready := false, exp := [], log := [] }
  executor := .idle
  commandIn := []
  responseOut := []
  entropyIn := []
  resetAsserted := false

/-- The seven error kinds (R151). Raising one is a response, not a stop (R150). -/
inductive ErrorKind where
  /-- SPLIT: the secret is empty. -/
  | invalidSecret
  /-- SPLIT: the threshold is 0 or exceeds the share count. -/
  | invalidThreshold
  /-- SPLIT: more than 16 shares. -/
  | tooManyShares
  /-- MKSHR, RECSH: a share index above 15. -/
  | invalidShareIndex
  /-- RECSH: shares of differing value length. -/
  | sizeMismatch
  /-- INTERP, RECSH, RECPT: no points or shares. -/
  | emptyInput
  /-- FDIV by 0; INTERP, RECPT, RECSH with two equal x. -/
  | divisionByZero
  deriving DecidableEq, Repr

/-- Why the machine stops. No command reaches either while the table invariant R17 holds, so no run from reset does. -/
inductive Fault where
  /-- Raised by a table read at an index above 255: no such entry exists (R30). Safe: the model stops, and R85 says no
  command reads there. -/
  | noSuchEntry (space : TableSpace) (index : Nat)
  /-- Raised by a table read of an entry that holds no value: not built, or LOG[0] (R16, R17). Safe: the model stops, and
  R85 says no command reads there. -/
  | unwrittenEntry (space : TableSpace) (index : Nat)
  deriving DecidableEq, Repr

/-- Why an instruction has no meaning. -/
inductive Refusal where
  /-- Raised only by an arm of exec for an instruction with no meaning yet. Safe: the model stops. No arm raises it. -/
  | notModelled (mnemonic : String)
  deriving DecidableEq, Repr

end Sys2Proof.Machine
end

