-- ==== Sys2Proof/Machine/Flags.lean ====
section
/-! DEFINITION. The unit's one flag, TBL_READY (rules R12, R15), and the status byte that reports a command's outcome in
its response frame (rules R56, R151). No command writes any other flag: there is none. -/

namespace Sys2Proof.Machine

/-- Sets TBL_READY; the table builder alone does (R15, R82). Reset alone clears it (R180). -/
def TableStore.setReady (t : TableStore) : TableStore := { t with ready := true }

/-- The status OK (R56). -/
def statusOk : Byte := 0x00

/-- The status code of an error kind (R151). -/
def ErrorKind.status : ErrorKind → Byte
  | .invalidSecret => 0x01
  | .invalidThreshold => 0x02
  | .tooManyShares => 0x03
  | .invalidShareIndex => 0x04
  | .sizeMismatch => 0x05
  | .emptyInput => 0x06
  | .divisionByZero => 0x07

/-- The status code of a frame that is no command (R55, R151). -/
def decodeStatus : DecodeError → Byte
  | .badCommand => 0x80
  | .badFrame => 0x81

end Sys2Proof.Machine
end

