-- ==== Sys2Proof/Machine/Ops.lean ====
section
/-! DEFINITION. The named operations of the machine: one byte of a table (file 20_memory.md), the table build and the
lookups (rules R82, R84, R91), a draw (rule R18), ending a command with a response or an error (rules R52, R150), taking a
frame from the command port (rule R19) and reset (rule R180). -/

namespace Sys2Proof.Machine

/-- What a piece of a command's work on the table store ends in. -/
inductive Res (α : Type) where
  /-- A value, and the table store after it. -/
  | ok (v : α) (t : TableStore)
  /-- `raise <Kind>` (R150), and the table store as it then is (R153). -/
  | raise (kind : ErrorKind) (t : TableStore)
  /-- The machine stops. -/
  | fault (f : Fault)
  deriving DecidableEq, Repr

/-- Go on with the value and the table store, unless the work has ended. -/
def Res.bind {α β : Type} (r : Res α) (next : α → TableStore → Res β) : Res β :=
  match r with
  | .ok v t => next v t
  | .raise kind t => .raise kind t
  | .fault f => .fault f

/-! ### One entry of a table (R30, R35) -/

/-- The byte an entry holds; `none` where it holds no value. -/
def Memory.read : Memory → Nat → Option Byte
  | [], _ => none
  | (k, b) :: m, i => if k = i then some b else Memory.read m i

/-- Writes one entry, keeping the cells in rising order. -/
def Memory.write : Memory → Nat → Byte → Memory
  | [], i, v => [(i, v)]
  | (k, b) :: m, i, v =>
    if i < k then (i, v) :: (k, b) :: m
    else if i = k then (i, v) :: m
    else (k, b) :: Memory.write m i v

/-- The table of an address space. -/
def TableStore.space (t : TableStore) : TableSpace → Memory
  | .exp => t.exp
  | .log => t.log

/-- `EXP[i]` or `LOG[a]` as a read (R7, R35): one whole entry, no side effect. -/
def TableStore.readEntry (t : TableStore) (sp : TableSpace) (i : Nat) : Res Byte :=
  if i < Config.tblSize then
    match (t.space sp).read i with
    | some b => .ok b t
    | none => .fault (.unwrittenEntry sp i)
  else .fault (.noSuchEntry sp i)

/-! ### The slow multiply and the table build (R91, R82) -/

/-- Multiplication by x: shift, and reduce when bit 7 falls out (R91). -/
def xtime (a : Byte) : Byte := if a.getLsbD 7 then (a <<< 1) ^^^ Config.polyLow else a <<< 1

/-- The loop of R91, `n` times, from the values `p`, `a`, `b`. -/
def clmulLoop : Nat → Byte → Byte → Byte → Byte
  | 0, p, _, _ => p
  | n + 1, p, a, b => clmulLoop n (if b.getLsbD 0 then p ^^^ a else p) (xtime a) (b >>> 1)

/-- `clmul_mod(a, b)`: the polynomial product modulo 0x11B (R91). -/
def clmulMod (a b : Byte) : Byte := clmulLoop 8 0 a b

/-- The loop of `build_tables` (R82): `n` more rounds from round `i` with running value `v`. -/
def buildLoop : Nat → Nat → Byte → TableStore → TableStore
  | 0, _, _, t => t
  | n + 1, i, v, t =>
    buildLoop n (i + 1) (clmulMod v Config.gen)
      { t with exp := t.exp.write i v, log := t.log.write v.toNat (BitVec.ofNat 8 i) }

/-- `EXP[255] <- EXP[0]` (R82). -/
def copyExpWrap (t : TableStore) : TableStore :=
  match t.exp.read 0 with
  | some b => { t with exp := t.exp.write Config.order b }
  | none => t

/-- `build_tables()` (R82): 255 rounds from the value 1, the wrap entry, then TBL_READY. LOG[0] is not written. -/
def buildTables (t : TableStore) : TableStore := (copyExpWrap (buildLoop Config.order 0 1 t)).setReady

/-- `ensure_tables()` (R84). -/
def ensureTables (t : TableStore) : TableStore := if t.ready then t else buildTables t

/-- `LookupLOG(a)` (R84). The caller guarantees a ≠ 0. -/
def lookupLog (t : TableStore) (a : Byte) : Res Byte := (ensureTables t).readEntry .log a.toNat

/-- `LookupEXP(i)` (R84). The caller guarantees i ≤ 254. -/
def lookupExp (t : TableStore) (i : Nat) : Res Byte := (ensureTables t).readEntry .exp i

/-! ### Entropy (R18) -/

/-- `Draw()`: the next byte delivered; `none` where there is none to take. -/
def draw : List Byte → Option (Byte × List Byte)
  | [] => none
  | b :: rest => some (b, rest)

/-- `n` draws in a row, the first drawn first, and what is left. -/
def drawMany : Nat → List Byte → Option (List Byte × List Byte)
  | 0, avail => some ([], avail)
  | n + 1, avail =>
    match draw avail with
    | none => none
    | some (b, rest) =>
      match drawMany n rest with
      | none => none
      | some (bs, rest') => some (b :: bs, rest')

/-- The bytes the command in flight has drawn; none in IDLE. -/
def Executor.drawn : Executor → List Byte
  | .idle => []
  | .busy _ drawn => drawn

/-- The bytes a SPLIT finds from its beginning: those it has drawn already, then those the source has delivered since
(log entry 5). -/
def State.available (s : State) : List Byte := s.executor.drawn ++ s.entropyIn

/-! ### Ending a command (R52, R56, R150) -/

/-- Emits one response frame and returns to IDLE, with the tables as the command left them (R19, R52). -/
def State.respond (s : State) (t : TableStore) (response : Frame) : State :=
  { s with tbl := t, executor := .idle, responseOut := s.responseOut ++ [response] }

/-- `raise <Kind>` (R150): the response is the one status byte; partial results are gone; nothing records the error. -/
def State.raiseError (s : State) (t : TableStore) (kind : ErrorKind) : State := s.respond t [kind.status]

/-- Ends a command with its work's outcome: OK and the payload, or the error's status byte (R52). -/
def State.finish {α : Type} (s : State) (payload : α → List Byte) (r : Res α) : Host.Outcome State Fault Refusal :=
  match r with
  | .ok v t => .next (s.respond t (statusOk :: payload v))
  | .raise kind t => .next (s.raiseError t kind)
  | .fault f => .fault f

/-- The source has no byte for the command in flight (R18): it stays BUSY with every byte delivered so far drawn, and
emits nothing (log entry 5). -/
def State.waitEntropy (s : State) (t : TableStore) (cmd : Instr) : State :=
  { s with tbl := t, executor := .busy cmd s.available, entropyIn := [] }

/-! ### The command port and reset -/

/-- In IDLE, takes the frame the host presents; `none` where it presents none (R19). -/
def State.takeFrame (s : State) : Option (Frame × State) :=
  match s.commandIn with
  | [] => none
  | f :: rest => some (f, { s with commandIn := rest })

/-- Answers a frame that is no command (R52, R55): one status byte, nothing else changes. -/
def State.rejectFrame (s : State) (e : DecodeError) : State := s.respond s.tbl [decodeStatus e]

/-- Takes reset (R180): tables not built and unspecified, IDLE; a command in flight is abandoned with no response and the
bytes it had drawn are gone; nothing happens to the entropy source or the host's side of the ports. -/
def State.takeReset (s : State) : State :=
  { s with tbl := State.reset.tbl, executor := .idle, resetAsserted := false }

end Sys2Proof.Machine
end

