-- ==== Sys2Proof/Machine/Operands.lean ====
section
/-! DEFINITION. The one operand form is a literal byte of the frame (rule R68); what is left to say is how operands are
read as points, shares and positions, and how results are laid out in a response (rule R65). -/

namespace Sys2Proof.Machine

/-- A one-byte result (R65). -/
def payloadByte (r : Byte) : List Byte := [r]

/-- SPLIT: N, then the share records in index order (R65). -/
def payloadShares (shares : List Share) : List Byte := countByte shares :: shares.flatMap Share.record

/-- RECSH: L, then the recovered bytes (R65). -/
def payloadSecret (secret : List Byte) : List Byte := countByte secret :: secret

/-- The points the drawn bytes stand for: (0, r[0]), (1, r[1]), ... (R121), from index `i` on. -/
def drawnPoints : Nat → List Byte → List Point
  | _, [] => []
  | i, r :: rs => ⟨BitVec.ofNat 8 i, r⟩ :: drawnPoints (i + 1) rs

/-- The K points of a byte position (R121): the drawn bytes at 0..K-2 and the secret byte at X_SECRET. -/
def splitPoints (drawn : List Byte) (secretByte : Byte) : List Point :=
  drawnPoints 0 drawn ++ [⟨Config.xSecret, secretByte⟩]

/-- The x-coordinates K-1..N-1 of the shares that are interpolated (R121). -/
def splitTargets (k n : Nat) : List Byte := (List.range' (k - 1) (n - (k - 1))).map (BitVec.ofNat 8)

/-- Share i is (i, V[i]) (R121), from index `i` on. -/
def indexShares : Nat → List (List Byte) → List Share
  | _, [] => []
  | i, v :: vs => ⟨BitVec.ofNat 8 i, v⟩ :: indexShares (i + 1) vs

/-- A share as the point of byte position `p` (R120, R123). `p` is below the length of every value where RECSH uses it, so
the 0 is never taken. -/
def Share.pointAt (p : Nat) (sh : Share) : Point := ⟨sh.index, sh.value.getD p 0⟩

end Sys2Proof.Machine
end

