-- ==== Sys2Proof/Machine/Field.lean ====
section
/-! DEFINITION. The field-element unit FE (file 40_field.md): FADD, FSUB, FMUL, FDIV, FPOW. -/

namespace Sys2Proof.Machine

/-- `fe_add` (R86). -/
def feAdd (a b : Byte) : Byte := a ^^^ b

/-- `fe_sub` (R87). -/
def feSub (a b : Byte) : Byte := a ^^^ b

/-- `fe_mul` (R88). The index sum is a natural number and does not wrap at 8 bits (R92). -/
def feMul (t : TableStore) (a b : Byte) : Res Byte :=
  if a = 0 ∨ b = 0 then .ok 0 t
  else (lookupLog t a).bind fun i t => (lookupLog t b).bind fun j t =>
    lookupExp t ((i.toNat + j.toNat) % Config.order)

/-- `fe_div` (R89): the divisor is tested first. `255 + i` comes before the subtraction (R92). -/
def feDiv (t : TableStore) (a b : Byte) : Res Byte :=
  if b = 0 then .raise .divisionByZero t
  else if a = 0 then .ok 0 t
  else (lookupLog t a).bind fun i t => (lookupLog t b).bind fun j t =>
    lookupExp t ((Config.order + i.toNat - j.toNat) % Config.order)

/-- The loop of `fe_pow` (R90): `e` more multiplications of `acc` by `f`. -/
def fePowLoop (f : Byte) : Nat → Byte → TableStore → Res Byte
  | 0, acc, t => .ok acc t
  | e + 1, acc, t => (feMul t acc f).bind fun acc t => fePowLoop f e acc t

/-- `fe_pow` (R90), for every natural exponent. -/
def fePow (t : TableStore) (f : Byte) (e : Nat) : Res Byte := fePowLoop f e 1 t

/-- FADD (R86). -/
def execFadd (a b : Byte) (s : State) : Host.Outcome State Fault Refusal :=
  s.finish payloadByte (.ok (feAdd a b) s.tbl)

/-- FSUB (R87). -/
def execFsub (a b : Byte) (s : State) : Host.Outcome State Fault Refusal :=
  s.finish payloadByte (.ok (feSub a b) s.tbl)

/-- FMUL (R88). -/
def execFmul (a b : Byte) (s : State) : Host.Outcome State Fault Refusal :=
  s.finish payloadByte (feMul s.tbl a b)

/-- FDIV (R89). -/
def execFdiv (a b : Byte) (s : State) : Host.Outcome State Fault Refusal :=
  s.finish payloadByte (feDiv s.tbl a b)

/-- FPOW (R90). The exponent is an unsigned integer, not a field element (R58). -/
def execFpow (f e : Byte) (s : State) : Host.Outcome State Fault Refusal :=
  s.finish payloadByte (fePow s.tbl f e.toNat)

end Sys2Proof.Machine
end

