-- ==== Sys2Proof/Machine/Interpolation.lean ====
section
/-! DEFINITION. The Lagrange interpolation engine LIE (file 41_interpolation.md): INTERP. -/

namespace Sys2Proof.Machine

/-- The inner loop of `interpolate` (R111): the basis product of the point at position `i` with x-coordinate `xi`, over
the points from position `j` on, one division per factor, position `i` left out. -/
def basisLoop (x : Byte) (i : Nat) (xi : Byte) : Nat → List Point → Byte → TableStore → Res Byte
  | _, [], basis, t => .ok basis t
  | j, p :: rest, basis, t =>
    if j = i then basisLoop x i xi (j + 1) rest basis t
    else (feDiv t (feSub x p.x) (feSub xi p.x)).bind fun q t => (feMul t basis q).bind fun basis t =>
      basisLoop x i xi (j + 1) rest basis t

/-- The outer loop of `interpolate` (R111): adds the terms of the points from position `i` on to `sum`; the inner loop
runs over all the points. -/
def sumLoop (x : Byte) (points : List Point) : Nat → List Point → Byte → TableStore → Res Byte
  | _, [], sum, t => .ok sum t
  | i, p :: rest, sum, t =>
    (basisLoop x i p.x 0 points 1 t).bind fun basis t => (feMul t basis p.y).bind fun term t =>
      sumLoop x points (i + 1) rest (feAdd sum term) t

/-- `interpolate(x, points)` (R111). -/
def interpolate (t : TableStore) (x : Byte) (points : List Point) : Res Byte :=
  if points = [] then .raise .emptyInput t else sumLoop x points 0 points 0 t

/-- INTERP (R111). -/
def execInterp (x : Byte) (points : List Point) (s : State) : Host.Outcome State Fault Refusal :=
  s.finish payloadByte (interpolate s.tbl x points)

end Sys2Proof.Machine
end

