-- ==== Sys2Proof/Machine/Sharing.lean ====
section
/-! DEFINITION. The split/recover orchestrator SSO (file 42_sharing.md): SPLIT, RECSH, RECPT, MKSHR, MKPT. -/

namespace Sys2Proof.Machine

/-- `interpolate` at each target in turn, with the same points (R121). -/
def interpolateEach (points : List Point) : List Byte → TableStore → Res (List Byte)
  | [], t => .ok [] t
  | x :: rest, t =>
    (interpolate t x points).bind fun y t => (interpolateEach points rest t).bind fun ys t => .ok (y :: ys) t

/-- What the lanes of a split come to. -/
inductive Lanes where
  /-- The share values V[0], V[1], ... and the bytes not drawn. -/
  | done (values : List (List Byte)) (rest : List Byte)
  /-- A draw found no byte (R18). -/
  | starved
  deriving DecidableEq, Repr

/-- Byte p of every share, V[0][p] to V[N-1][p], with the bytes drawn for the position (R121). -/
def splitColumn (k n : Nat) (drawn : List Byte) (secretByte : Byte) (t : TableStore) : Res (List Byte) :=
  if k = 1 then .ok (List.replicate n secretByte) t
  else (interpolateEach (splitPoints drawn secretByte) (splitTargets k n) t).bind fun ys t => .ok (drawn ++ ys) t

/-- The loop of `split` over the byte positions in ascending order (R121): `K-1` draws, the column, then the positions
after it, whose values the column's bytes come in front of. -/
def splitLanes (k n : Nat) : List Byte → List Byte → TableStore → Res Lanes
  | [], avail, t => .ok (.done (List.replicate n []) avail) t
  | secretByte :: secret, avail, t =>
    match drawMany (k - 1) avail with
    | none => .ok .starved t
    | some (drawn, avail) =>
      (splitColumn k n drawn secretByte t).bind fun column t =>
        (splitLanes k n secret avail t).bind fun lanes t =>
          match lanes with
          | .done values rest => .ok (.done (List.zipWith List.cons column values) rest) t
          | .starved => .ok .starved t

/-- `split(K, N, secret)` (R121): the four checks in their order, before the first draw, then the lanes. -/
def split (t : TableStore) (k n : Nat) (secret avail : List Byte) : Res Lanes :=
  if secret = [] then .raise .invalidSecret t
  else if k = 0 then .raise .invalidThreshold t
  else if n < k then .raise .invalidThreshold t
  else if Config.nMax < n then .raise .tooManyShares t
  else splitLanes k n secret avail t

/-- SPLIT (R121). Out of entropy it waits (R18). -/
def execSplit (k n : Byte) (secret : List Byte) (s : State) : Host.Outcome State Fault Refusal :=
  match split s.tbl k.toNat n.toNat secret s.available with
  | .ok (.done values rest) t =>
    .next ({ s with entropyIn := rest }.respond t (statusOk :: payloadShares (indexShares 0 values)))
  | .ok .starved t => .next (s.waitEntropy t (.split k n secret))
  | .raise kind t => .next (s.raiseError t kind)
  | .fault f => .fault f

/-- The loop of `recover_shares` over the byte positions given (R123). -/
def recoverLanes (shares : List Share) : List Nat → TableStore → Res (List Byte)
  | [], t => .ok [] t
  | p :: rest, t =>
    (interpolate t Config.xSecret (shares.map (Share.pointAt p))).bind fun b t =>
      (recoverLanes shares rest t).bind fun bs t => .ok (b :: bs) t

/-- `recover_shares(shares)` (R123): the three checks in their order, then the positions. -/
def recoverShares (t : TableStore) (shares : List Share) : Res (List Byte) :=
  match shares with
  | [] => .raise .emptyInput t
  | first :: others =>
    if (first :: others).any fun sh => Config.idxMax < sh.index.toNat then .raise .invalidShareIndex t
    else if others.any fun sh => sh.value.length ≠ first.value.length then .raise .sizeMismatch t
    else recoverLanes (first :: others) (List.range first.value.length) t

/-- RECSH (R123). -/
def execRecsh (shares : List Share) (s : State) : Host.Outcome State Fault Refusal :=
  s.finish payloadSecret (recoverShares s.tbl shares)

/-- `recover_points(points)` (R124). -/
def recoverPoints (t : TableStore) (points : List Point) : Res Byte := interpolate t Config.xSecret points

/-- RECPT (R124). -/
def execRecpt (points : List Point) (s : State) : Host.Outcome State Fault Refusal :=
  s.finish payloadByte (recoverPoints s.tbl points)

/-- `mk_share(index, value)` (R125). -/
def mkShare (t : TableStore) (index : Byte) (value : List Byte) : Res Share :=
  if Config.idxMax < index.toNat then .raise .invalidShareIndex t else .ok ⟨index, value⟩ t

/-- MKSHR (R125). -/
def execMkshr (index : Byte) (value : List Byte) (s : State) : Host.Outcome State Fault Refusal :=
  s.finish Share.record (mkShare s.tbl index value)

/-- `mk_point(x, y)` (R126). -/
def mkPoint (x y : Byte) : Point := ⟨x, y⟩

/-- MKPT (R126). -/
def execMkpt (x y : Byte) (s : State) : Host.Outcome State Fault Refusal :=
  s.finish Point.bytes (.ok (mkPoint x y) s.tbl)

end Sys2Proof.Machine
end

