-- ==== Sys2Proof/Machine/Dispatch.lean ====
section
/-! DEFINITION. exec: one arm per constructor of Instr, each a direct call of that command's meaning (rule R53). -/

namespace Sys2Proof.Machine

def exec (i : Instr) (s : State) : Host.Outcome State Fault Refusal :=
  match i with
  | .fadd a b => Sys2Proof.Machine.execFadd a b s
  | .fsub a b => Sys2Proof.Machine.execFsub a b s
  | .fmul a b => Sys2Proof.Machine.execFmul a b s
  | .fdiv a b => Sys2Proof.Machine.execFdiv a b s
  | .fpow f e => Sys2Proof.Machine.execFpow f e s
  | .interp x points => Sys2Proof.Machine.execInterp x points s
  | .split k n secret => Sys2Proof.Machine.execSplit k n secret s
  | .recsh shares => Sys2Proof.Machine.execRecsh shares s
  | .recpt points => Sys2Proof.Machine.execRecpt points s
  | .mkshr index value => Sys2Proof.Machine.execMkshr index value s
  | .mkpt x y => Sys2Proof.Machine.execMkpt x y s

end Sys2Proof.Machine
end

