-- ==== Sys2Proof/Machine/Executor.lean ====
section
/-! DEFINITION. What the executor does with the frame it takes, and with a command in flight (rules R19, R52). -/

namespace Sys2Proof.Machine

/-- Executing a frame (R52): decode, then answer the rejection or run the command. Decoding comes before any execution. -/
def runFrame (f : Frame) (s : State) : Host.Outcome State Fault Refusal :=
  match decode f with
  | .error e => .next (s.rejectFrame e)
  | .ok i => exec i s

/-- The executor's move (R19): in BUSY the command in flight goes on; in IDLE the frame presented is executed, and with no
frame presented nothing happens (R181, log entry 6). -/
def runExecutor (s : State) : Host.Outcome State Fault Refusal :=
  match s.executor with
  | .busy cmd _ => exec cmd s
  | .idle =>
    match s.takeFrame with
    | none => .next s
    | some (f, s) => runFrame f s

end Sys2Proof.Machine
end

