-- ==== Sys2Proof/Machine/Step.lean ====
section
/-! DEFINITION. One step of the unit, and an opcode-table word presented as the next command frame. -/

namespace Sys2Proof.Machine

/-- One step: reset where it is asserted (R180), else the executor's move (R19). -/
def step (s : State) : Host.Outcome State Fault Refusal :=
  if s.resetAsserted then .next s.takeReset else runExecutor s

/-- The state in which the very next step takes the frame of an opcode-table word: the frame is presented first, the
executor is IDLE and reset is not asserted (log entries 3, 12). -/
def State.withFetchWord (s : State) (nbits w : Nat) : State :=
  { s with commandIn := frameOfTableWord nbits w :: s.commandIn, executor := .idle, resetAsserted := false }

end Sys2Proof.Machine
end

