-- ==== Sys2Proof/Safety.lean ====
section
/-! DEFINITION. What a safe run is, and the words the statements use: the invariant of the machine (rules R17, R19), the
state a command leaves when it answers, and the unit's arithmetic written without the machine's operations (the tables of
rule R83 as functions, the field by the polynomial product of rule R91, Lagrange's formula, the shares of a split). -/

namespace Sys2Proof.Machine

/-! ### The invariant -/

/-- EXP and LOG hold the contents R83 lists; LOG[0] may hold anything or nothing (R16, R17). -/
def TableStore.Built (t : TableStore) : Prop :=
  (∀ i, i < Config.tblSize → t.exp.read i = Config.r83Exp[i]?) ∧
    ∀ i, i < Config.order → t.log.read (i + 1) = Config.r83Log[i]?

/-- The table invariant (R17), with the canonical form of both memories. While TBL_READY is 0 nothing is said of the
contents. -/
def TableStore.Inv (t : TableStore) : Prop := t.wf ∧ (t.ready = true → t.Built)

/-- The command in flight is a SPLIT that has passed its checks and has not drawn all the bytes it needs: nothing else
waits (R18, R19). -/
def Executor.Inv : Executor → Prop
  | .idle => True
  | .busy (.split k n secret) drawn =>
    2 ≤ k.toNat ∧ k.toNat ≤ n.toNat ∧ n.toNat ≤ Config.nMax ∧ secret.length ≤ Config.lMax ∧
      drawn.length < (k.toNat - 1) * secret.length
  | .busy _ _ => False

/-- The machine's invariant. The ports are the outside world's and are not restricted. -/
def State.Inv (s : State) : Prop := s.tbl.Inv ∧ s.executor.Inv

/-! ### The state after an answer -/

/-- What a command leaves when it answers: the tables `t`, IDLE, one more response; every other field as it was. -/
def State.answered (s : State) (t : TableStore) (response : Frame) : State :=
  { s with tbl := t, executor := .idle, responseOut := s.responseOut ++ [response] }

/-- The value of a piece of work that ends in one. -/
def Res.value? {α : Type} : Res α → Option α
  | .ok v _ => some v
  | .raise _ _ => none
  | .fault _ => none

/-! ### The tables of R83 as functions -/

/-- `EXP[i]` as R83 prints it. -/
def expEntry (i : Nat) : Byte := Config.r83Exp.getD i 0

/-- `LOG[a]` as R83 prints it, for a ≠ 0. -/
def logEntry (a : Byte) : Nat := (Config.r83Log.getD (a.toNat - 1) 0).toNat

/-- The product through the printed tables (R88). -/
def tableProduct (a b : Byte) : Byte :=
  if a = 0 ∨ b = 0 then 0 else expEntry ((logEntry a + logEntry b) % 255)

/-- The quotient through the printed tables, for b ≠ 0 (R89). -/
def tableQuotient (a b : Byte) : Byte :=
  if a = 0 then 0 else expEntry ((255 + logEntry a - logEntry b) % 255)

/-- `e` multiplications by `f` from 1, through the printed tables (R90). -/
def tablePower (f : Byte) : Nat → Byte
  | 0 => 1
  | e + 1 => tableProduct (tablePower f e) f

/-! ### The field by polynomial arithmetic (R80, R91) -/

/-- `f` to the power `e`, by the polynomial product. -/
def fieldPower (f : Byte) : Nat → Byte
  | 0 => 1
  | e + 1 => clmulMod (fieldPower f e) f

/-- The quotient a / b for b ≠ 0: the inverse of b is b^254, the nonzero elements being a group of order 255. -/
def fieldQuotient (a b : Byte) : Byte := clmulMod a (fieldPower b 254)

/-- The value at `x` of the polynomial with the coefficients `c`, the constant one first. -/
def polynomialAt (c : List Byte) (x : Byte) : Byte := c.foldr (fun a rest => a ^^^ clmulMod x rest) 0

/-- No two points have the same x (R113). -/
def DistinctX (points : List Point) : Prop := (points.map Point.x).Nodup

/-- The basis product of the point at position `i` (R111): the factors of every other position. -/
def basisAt (x : Byte) (points : List Point) (i : Nat) (xi : Byte) : Byte :=
  ((points.zipIdx.filter fun c => c.2 ≠ i).map fun c => fieldQuotient (x ^^^ c.1.x) (xi ^^^ c.1.x)).foldl clmulMod 1

/-- The Lagrange sum (R111). -/
def lagrangeAt (x : Byte) (points : List Point) : Byte :=
  (points.zipIdx.map fun c => clmulMod (basisAt x points c.2 c.1.x) c.1.y).foldl (· ^^^ ·) 0

/-! ### The shares of a split (R121) -/

/-- `r[i]` of byte position `p`: the drawn bytes go to the positions in order, K-1 to each. -/
def drawnByte (k : Nat) (drawn : List Byte) (p i : Nat) : Byte := drawn.getD (p * (k - 1) + i) 0

/-- The K points of byte position `p`. -/
def positionPoints (k : Nat) (secret drawn : List Byte) (p : Nat) : List Point :=
  ((List.range (k - 1)).map fun i => ⟨BitVec.ofNat 8 i, drawnByte k drawn p i⟩) ++ [⟨255, secret.getD p 0⟩]

/-- `V[i][p]`. -/
def shareByte (k : Nat) (secret drawn : List Byte) (i p : Nat) : Byte :=
  if k = 1 then secret.getD p 0
  else if i < k - 1 then drawnByte k drawn p i
  else lagrangeAt (BitVec.ofNat 8 i) (positionPoints k secret drawn p)

/-- The N shares, in index order. -/
def sharesOf (k n : Nat) (secret drawn : List Byte) : List Share :=
  (List.range n).map fun i => ⟨BitVec.ofNat 8 i, (List.range secret.length).map (shareByte k secret drawn i)⟩

end Sys2Proof.Machine
end

