-- ==== Sys2Proof/Certificates/Slice0/Obligations.lean ====
section
/-! DEFINITION. The statements about the model, from the numbered rules of spec/. The words they use (answered, Inv, Built,
tableProduct, lagrangeAt, sharesOf and the like) are defined in Sys2Proof/Safety.lean, from the tables R83 prints and the
polynomial product of R91. -/

open Sys2Proof Sys2Proof.Machine

/-! ### The field unit (40_field.md) -/

/-- R86: FADD answers OK and the exclusive-or of its operands; it is total, and nothing else changes. -/
def Obligations.FaddAnswersXor : Prop :=
  ∀ (a b : Byte) (s : State), exec (.fadd a b) s = .next (s.answered s.tbl [0x00, a ^^^ b])

/-- R87: FSUB answers OK and the exclusive-or of its operands, as FADD does; it is total, and nothing else changes. -/
def Obligations.FsubAnswersXor : Prop :=
  ∀ (a b : Byte) (s : State), exec (.fsub a b) s = .next (s.answered s.tbl [0x00, a ^^^ b])

/-- R88: FMUL answers 0 for a zero operand without touching the tables, and otherwise the entry of EXP at the sum of the
two logarithms mod 255, the tables ensured. -/
def Obligations.FmulAnswersTableProduct : Prop :=
  ∀ (a b : Byte) (s : State), s.Inv → exec (.fmul a b) s =
    .next (if a = 0 ∨ b = 0 then s.answered s.tbl [0x00, 0]
      else s.answered (ensureTables s.tbl) [0x00, expEntry ((logEntry a + logEntry b) % 255)])

/-- R89: FDIV answers DivisionByZero for a zero divisor, tested first; 0 for a zero dividend; otherwise the entry of EXP at
255 plus the difference of the logarithms, mod 255. Only the last touches the tables. -/
def Obligations.FdivAnswersTableQuotient : Prop :=
  ∀ (a b : Byte) (s : State), s.Inv → exec (.fdiv a b) s =
    .next (if b = 0 then s.answered s.tbl [0x07]
      else if a = 0 then s.answered s.tbl [0x00, 0]
      else s.answered (ensureTables s.tbl) [0x00, expEntry ((255 + logEntry a - logEntry b) % 255)])

/-- R90: FPOW answers the result of e multiplications by f from 1; the tables are touched where f and e are not 0. -/
def Obligations.FpowAnswersRepeatedProduct : Prop :=
  ∀ (f e : Byte) (s : State), s.Inv → exec (.fpow f e) s =
    .next (s.answered (if f = 0 ∨ e = 0 then s.tbl else ensureTables s.tbl) [0x00, tablePower f e.toNat])

/-- R90, corner cases: f^0 = 1 for every f; 0^e = 0 for e ≥ 1; f^255 = 1 and f^254 = 1/f for f ≠ 0. -/
def Obligations.FpowCornerExponents : Prop :=
  ∀ (f e : Byte) (s : State), s.Inv →
    exec (.fpow f 0) s = .next (s.answered s.tbl [0x00, 1]) ∧
    (e ≠ 0 → exec (.fpow 0 e) s = .next (s.answered s.tbl [0x00, 0])) ∧
    (f ≠ 0 → exec (.fpow f 255) s = .next (s.answered (ensureTables s.tbl) [0x00, 1])) ∧
    (f ≠ 0 → exec (.fpow f 254) s = exec (.fdiv 1 f) s)

/-- R91: `clmul_mod` is the product of the two polynomials over GF(2), reduced modulo x^8 + x^4 + x^3 + x + 1 (its result, a
byte, has degree less than 8). Bit i is the coefficient of x^i. -/
def Obligations.ClmulIsPolynomialProduct : Prop :=
  ∀ a b : Byte,
    let poly : Byte → Polynomial (ZMod 2) := fun c =>
      ∑ i ∈ Finset.range 8, if c.getLsbD i then (Polynomial.X : Polynomial (ZMod 2)) ^ i else 0
    ∃ q : Polynomial (ZMod 2),
      poly a * poly b =
        poly (clmulMod a b) + q * (Polynomial.X ^ 8 + Polynomial.X ^ 4 + Polynomial.X ^ 3 + Polynomial.X + 1)

/-- R93: the table method computes the polynomial product, and for b ≠ 0 the quotient is the unique byte q with q times b
equal to a. -/
def Obligations.TableMethodIsPolynomialProduct : Prop :=
  ∀ (t : TableStore) (a b : Byte), t.Inv →
    (feMul t a b).value? = some (clmulMod a b) ∧
    (b ≠ 0 → ∃ q, (feDiv t a b).value? = some q ∧ ∀ p, (feMul t p b).value? = some a ↔ p = q)

/-- R94: the field laws of the four operations, and that a division by 0 raises DivisionByZero. -/
def Obligations.FieldLawsOfTheUnit : Prop :=
  ∀ (t : TableStore) (a b c : Byte), t.Inv →
    let mul := fun x y => (feMul t x y).value?
    let div := fun x y => (feDiv t x y).value?
    feAdd a 0 = a ∧ feAdd a a = 0 ∧ feSub a b = feAdd a b ∧
    mul a 0 = some 0 ∧ mul 0 a = some 0 ∧ mul a 1 = some a ∧
    (a ≠ 0 → div a a = some 1) ∧
    ((mul a b).bind fun p => mul p c) = ((mul b c).bind fun q => mul a q) ∧
    mul a b = mul b a ∧
    mul a (feAdd b c) = ((mul a b).bind fun p => (mul a c).map fun q => feAdd p q) ∧
    (b ≠ 0 → ((div a b).bind fun q => mul q b) = some a) ∧
    feDiv t a 0 = .raise .divisionByZero t

/-- R81: the generator is 0x03; its powers 0 to 254 are pairwise different and nonzero and its power 255 is 1; the powers of
0x02 take only 51 different values. -/
def Obligations.GeneratorIsPrimitive : Prop :=
  Config.gen = 0x03 ∧
    ((List.range 255).map (fieldPower 0x03)).Nodup ∧ (∀ i, i < 255 → fieldPower 0x03 i ≠ 0) ∧
    fieldPower 0x03 255 = 1 ∧
    fieldPower 0x02 51 = 1 ∧ ((List.range 255).map (fieldPower 0x02)).dedup.length = 51

/-! ### The table store (10_state.md, 20_memory.md, 40_field.md) -/

/-- R82, R83: whatever the tables held, the build leaves the contents R83 lists and sets TBL_READY, leaves LOG[0] as it was,
and keeps the canonical form of the memories (the form is the model's own, log entry 1). -/
def Obligations.BuildFillsTheTables : Prop :=
  ∀ t : TableStore, t.wf →
    (buildTables t).Built ∧ (buildTables t).ready = true ∧ (buildTables t).log.read 0 = t.log.read 0 ∧
    (buildTables t).wf

/-- R14, R16: in built tables EXP[i] is the generator's power i for i in 0..254, EXP[255] is 1, and LOG of the power i is
i. -/
def Obligations.BuiltTablesArePowersAndLogarithms : Prop :=
  ∀ t : TableStore, t.Built →
    (∀ i, i < 255 → t.exp.read i = some (fieldPower Config.gen i)) ∧ t.exp.read 255 = some 1 ∧
    ∀ i, i < 255 → t.log.read (fieldPower Config.gen i).toNat = some (BitVec.ofNat 8 i)

/-- R84: a lookup first builds tables that are not built and otherwise only reads; it gives the entry R83 lists. -/
def Obligations.LookupBuildsThenReads : Prop :=
  ∀ (t : TableStore) (a : Byte) (i : Nat), t.Inv →
    (ensureTables t = if t.ready then t else buildTables t) ∧
    (a ≠ 0 → lookupLog t a = .ok (BitVec.ofNat 8 (logEntry a)) (ensureTables t)) ∧
    (i ≤ 254 → lookupExp t i = .ok (expEntry i) (ensureTables t))

/-- R15, R17, R38: built tables never change, and TBL_READY stays set, in every step that does not take reset. -/
def Obligations.ReadyTablesNeverChange : Prop :=
  ∀ s t : State, s.tbl.ready = true → s.resetAsserted = false → step s = .next t → t.tbl = s.tbl

/-- R31, R36, R16, entry by entry: a command leaves every entry of tables that are ready as it was; FADD, FSUB, MKSHR and
MKPT leave every entry as it was in any state; no command writes LOG[0]. -/
def Obligations.CommandsKeepTableEntries : Prop :=
  ∀ (i : Instr) (s t : State), exec i s = .next t →
    (s.tbl.ready = true → ∀ sp j, (t.tbl.space sp).read j = (s.tbl.space sp).read j) ∧
    ((match i with
      | .fadd _ _ => True | .fsub _ _ => True | .mkshr _ _ => True | .mkpt _ _ => True
      | .fmul _ _ => False | .fdiv _ _ => False | .fpow _ _ => False | .interp _ _ => False
      | .split _ _ _ => False | .recsh _ => False | .recpt _ => False) →
      t.tbl.ready = s.tbl.ready ∧ ∀ sp j, (t.tbl.space sp).read j = (s.tbl.space sp).read j) ∧
    t.tbl.log.read 0 = s.tbl.log.read 0

/-! ### Frames and the decoder (30_encoding.md) -/

/-- R57 to R64, R66: the decoder reads every well-formed command back from the frame that carries it. -/
def Obligations.DecodeOfEncode : Prop := ∀ i : Instr, i.wf = true → decode (encode i) = .ok i

/-- R66, R51: a frame that decodes is the frame of the command it decodes to, which is well-formed: each frame has one
meaning, and no byte is dropped. -/
def Obligations.EncodeOfDecode : Prop := ∀ (f : Frame) (i : Instr), decode f = .ok i → i.wf = true ∧ encode i = f

/-- R66: frames written out from the format tables decode to the commands they stand for. -/
def Obligations.SampleFramesDecode : Prop :=
  decode [0x01, 0x57, 0x83] = .ok (.fadd 0x57 0x83) ∧
  decode [0x04, 0x09, 0x03] = .ok (.fdiv 0x09 0x03) ∧
  decode [0x05, 0x02, 0x08] = .ok (.fpow 0x02 0x08) ∧
  decode [0x10, 0xFF, 0x02, 0x01, 0x10, 0x02, 0x20] = .ok (.interp 0xFF [⟨0x01, 0x10⟩, ⟨0x02, 0x20⟩]) ∧
  decode [0x20, 0x02, 0x03, 0x01, 0x7F] = .ok (.split 0x02 0x03 [0x7F]) ∧
  decode [0x21, 0x02, 0x01, 0x01, 0xB9, 0x02, 0x01, 0x6F] = .ok (.recsh [⟨0x01, [0xB9]⟩, ⟨0x02, [0x6F]⟩]) ∧
  decode [0x22, 0x01, 0x09, 0x77] = .ok (.recpt [⟨0x09, 0x77⟩]) ∧
  decode [0x30, 0x0F, 0x02, 0x01, 0x02] = .ok (.mkshr 0x0F [0x01, 0x02]) ∧
  decode [0x31, 0xFF, 0x00] = .ok (.mkpt 0xFF 0x00)

/-- R66, R67: a frame decodes exactly where its length is the one that byte 0 and its count and length fields demand. -/
def Obligations.FrameDecodesAtItsLength : Prop :=
  ∀ f : Frame, (∃ i, decode f = .ok i) ↔ formatLength f = some f.length

/-- R55: the empty frame is answered 81; a frame with a reserved opcode is answered 80 whatever its length; a frame with a
known opcode and a wrong length is answered 81; the unit's state does not change. -/
def Obligations.RejectedFramesAreAnswered : Prop :=
  ∀ (s : State) (f : Frame) (rest : List Frame), s.resetAsserted = false → s.executor = .idle →
    s.commandIn = f :: rest →
    let known : List Byte := [0x01, 0x02, 0x03, 0x04, 0x05, 0x10, 0x20, 0x21, 0x22, 0x30, 0x31]
    (f = [] → step s = .next ({ s with commandIn := rest }.answered s.tbl [0x81])) ∧
    ∀ op args, f = op :: args →
      (op ∉ known → step s = .next ({ s with commandIn := rest }.answered s.tbl [0x80])) ∧
      (op ∈ known → formatLength f ≠ some f.length →
        step s = .next ({ s with commandIn := rest }.answered s.tbl [0x81]))

/-! ### The executor (10_state.md, 30_encoding.md) -/

/-- R52, R19: where the frame presented decodes to a command, a step takes the frame and is that command's meaning (that a
command is one step is the collapse R19 allows: log entry 2). -/
def Obligations.StepRunsTheDecodedCommand : Prop :=
  ∀ (s : State) (f : Frame) (rest : List Frame) (i : Instr), s.resetAsserted = false → s.executor = .idle →
    s.commandIn = f :: rest → decode f = .ok i → step s = exec i { s with commandIn := rest }

/-- R181, R19: with no frame presented the idle unit does nothing (that this is a step, and that a BUSY unit looks at no
frame and goes on with its command, is the model's form: log entries 5 and 6). -/
def Obligations.StepWithoutAFrame : Prop :=
  ∀ (s : State), s.resetAsserted = false →
    (s.executor = .idle → s.commandIn = [] → step s = .next s) ∧
    ∀ i drawn, s.executor = .busy i drawn → step s = exec i s

/-- R50, R19, R18, R181: a step that takes a command frame, or goes on with one, either emits exactly one response and is
IDLE again, or stays BUSY and emits none; any other step emits none. That a wait for entropy and an idle unit with no frame
are steps is the model's form (DESIGN CHOICE, log entries 5 and 6: by R18 the waiting executor has no step, by R181 the idle
unit does nothing); that a command runs from its frame to its response or its wait in one step is the collapse R19 allows
(log entry 2); and that no reset cuts a command short outside a wait is the model's choice too (log entry 7, unsafe). -/
def Obligations.OneResponsePerCommand : Prop :=
  ∀ s t : State, s.resetAsserted = false → step s = .next t →
    ((∃ f, s.executor = .idle ∧ s.commandIn = f :: t.commandIn) ∨
        (s.executor ≠ .idle ∧ t.commandIn = s.commandIn)) ∧
      ((t.executor = .idle ∧ ∃ r, t.responseOut = s.responseOut ++ [r]) ∨
        (t.executor ≠ .idle ∧ t.responseOut = s.responseOut)) ∨
    s.executor = .idle ∧ s.commandIn = [] ∧ t = s

/-- R56, R151, R43: every response has a status byte of R151's table, is that byte alone where the status is not OK, and has
at most 4,114 bytes. -/
def Obligations.ResponsesAreWellFormed : Prop :=
  ∀ (s t : State) (r : Frame), s.Inv → step s = .next t → t.responseOut = s.responseOut ++ [r] →
    ∃ status payload, r = status :: payload ∧
      status ∈ ([0x00, 0x01, 0x02, 0x03, 0x04, 0x05, 0x06, 0x07, 0x80, 0x81] : List Byte) ∧
      (status ≠ 0x00 → payload = []) ∧ r.length ≤ 4114

/-- R18, R11: no command but SPLIT takes bytes from the source, nor does SPLIT with K = 1 in IDLE; no command touches the
frames the host has yet to present or the reset line, and none takes back a response. -/
def Obligations.CommandsLeaveThePortsAlone : Prop :=
  ∀ (i : Instr) (s t : State), exec i s = .next t →
    t.commandIn = s.commandIn ∧ t.resetAsserted = s.resetAsserted ∧ s.responseOut <+: t.responseOut ∧
    ((∀ k n secret, i = .split k n secret → k = 1 ∧ s.executor = .idle) → t.entropyIn = s.entropyIn)

/-- R150, R153: a command answered with an error changes nothing and consumes no entropy, but that an INTERP, RECSH or RECPT
that fails with DivisionByZero may leave the tables built. -/
def Obligations.FailingCommandsChangeNothing : Prop :=
  ∀ (i : Instr) (s t : State) (c : Byte), exec i s = .next t → t.responseOut = s.responseOut ++ [[c]] →
    t = s.answered t.tbl [c] ∧
    (t.tbl = s.tbl ∨ c = 0x07 ∧ t.tbl = ensureTables s.tbl ∧
      ((∃ x points, i = .interp x points) ∨ (∃ shares, i = .recsh shares) ∨ ∃ points, i = .recpt points))

/-- R192, R43, R50: with as many bytes delivered as any SPLIT draws (3,825, R43), every frame is taken and answered. That it
is answered within one step is the model's form (DEDUCED, log entry 2: the collapse R19 allows), and that no reset arrives
between the frame and its response is the model's choice (DESIGN CHOICE, log entry 7, unsafe): of hardware that is reset
within a command this is false, for R180 has it abandon the command with no response. -/
def Obligations.EveryFrameIsAnswered : Prop :=
  ∀ (s : State) (f : Frame) (rest : List Frame), s.Inv → s.resetAsserted = false → s.executor = .idle →
    s.commandIn = f :: rest → 3825 ≤ s.entropyIn.length →
    ∃ t r, step s = .next t ∧ t.executor = .idle ∧ t.commandIn = rest ∧ t.responseOut = s.responseOut ++ [r]

/-- R20, R22: the response, and all else a step does, depends neither on TBL_READY and the unspecified entries nor on the
responses before it: two states that differ there alone step to states that differ there alone. -/
def Obligations.ResponseIndependentOfTablesAndHistory : Prop :=
  ∀ (s : State) (t : TableStore) (history : List Frame), s.Inv → t.Inv →
    ∃ (a : State) (u : TableStore) (emitted : List Frame), step s = .next a ∧
      a.responseOut = s.responseOut ++ emitted ∧
      step { s with tbl := t, responseOut := history } =
        .next { a with tbl := u, responseOut := history ++ emitted }

/-! ### Interpolation (41_interpolation.md) -/

/-- R111, R123, R124, R151: with no points or shares, INTERP, RECPT and RECSH answer EmptyInput and nothing else changes. -/
def Obligations.EmptyInputIsAnswered : Prop :=
  ∀ (x : Byte) (s : State),
    exec (.interp x []) s = .next (s.answered s.tbl [0x06]) ∧
    exec (.recpt []) s = .next (s.answered s.tbl [0x06]) ∧
    exec (.recsh []) s = .next (s.answered s.tbl [0x06])

/-- R113, R186: INTERP and RECPT answer DivisionByZero exactly where two points have the same x; the tables are then as they
were or ensured. -/
def Obligations.DivisionByZeroExactlyOnEqualX : Prop :=
  ∀ (x : Byte) (points : List Point) (s : State), s.Inv →
    ((∃ t, (t = s.tbl ∨ t = ensureTables s.tbl) ∧ exec (.interp x points) s = .next (s.answered t [0x07])) ↔
      ¬ DistinctX points) ∧
    ((∃ t, (t = s.tbl ∨ t = ensureTables s.tbl) ∧ exec (.recpt points) s = .next (s.answered t [0x07])) ↔
      ¬ DistinctX points)

/-- R111: for points with different x, INTERP answers the Lagrange sum; the tables are ensured but for a single point with
y = 0, which needs no lookup. -/
def Obligations.InterpAnswersLagrangeSum : Prop :=
  ∀ (x : Byte) (points : List Point) (s : State), s.Inv → points ≠ [] → DistinctX points →
    exec (.interp x points) s =
      .next (s.answered (if points.map Point.y = [0] then s.tbl else ensureTables s.tbl) [0x00, lagrangeAt x points])

/-- R112 (a), (b): a single point answers its y for every target; among points with different x, a target equal to a
point's x answers that point's y. -/
def Obligations.InterpAtASamplePoint : Prop :=
  ∀ (x : Byte) (p : Point) (points : List Point) (s : State), s.Inv →
    (∃ t, exec (.interp x [p]) s = .next (s.answered t [0x00, p.y])) ∧
    (DistinctX points → p ∈ points → ∃ t, exec (.interp p.x points) s = .next (s.answered t [0x00, p.y]))

/-- R112 (c): the response does not depend on the order of points with different x. -/
def Obligations.InterpIgnoresTheOrderOfPoints : Prop :=
  ∀ (x : Byte) (points points' : List Point) (s : State), s.Inv → DistinctX points → points.Perm points' →
    ∃ t, exec (.interp x points) s = .next t ∧ exec (.interp x points') s = .next t

/-- R112 (c): n points with different x that lie on a polynomial of degree less than n give that polynomial's value at every
target. -/
def Obligations.InterpReproducesThePolynomial : Prop :=
  ∀ (c : List Byte) (x : Byte) (points : List Point) (s : State), s.Inv → points ≠ [] → DistinctX points →
    c.length ≤ points.length → (∀ p ∈ points, p.y = polynomialAt c p.x) →
    ∃ t, exec (.interp x points) s = .next (s.answered t [0x00, polynomialAt c x])

/-! ### Split and recover (42_sharing.md) -/

/-- R121, R154: the four checks of SPLIT in their order; the error is the first that fails, nothing is drawn and no table is
touched. -/
def Obligations.SplitChecksInOrder : Prop :=
  ∀ (k n : Byte) (secret : List Byte) (s : State),
    (secret = [] → exec (.split k n secret) s = .next (s.answered s.tbl [0x01])) ∧
    (secret ≠ [] → k = 0 → exec (.split k n secret) s = .next (s.answered s.tbl [0x02])) ∧
    (secret ≠ [] → k ≠ 0 → n.toNat < k.toNat → exec (.split k n secret) s = .next (s.answered s.tbl [0x02])) ∧
    (secret ≠ [] → k ≠ 0 → k.toNat ≤ n.toNat → 16 < n.toNat →
      exec (.split k n secret) s = .next (s.answered s.tbl [0x03]))

/-- R122 (a): SPLIT with threshold 1 answers N shares all equal to the secret, indices 0..N-1; no draw, no lookup. -/
def Obligations.SplitWithThresholdOne : Prop :=
  ∀ (n : Byte) (secret : List Byte) (s : State), s.executor = .idle → secret ≠ [] → 1 ≤ n.toNat → n.toNat ≤ 16 →
    exec (.split 1 n secret) s = .next (s.answered s.tbl
      (0x00 :: n :: (List.range n.toNat).flatMap fun i => BitVec.ofNat 8 i :: BitVec.ofNat 8 secret.length :: secret))

/-- R121, R65: SPLIT, its checks passed and its (K-1)L bytes delivered, answers N and the N share records: share i at
position p is the drawn byte r[i] for i < K-1 and the Lagrange value at i of the position's K points from K-1 on (the secret
byte where K = 1). It takes exactly those bytes, in order. -/
def Obligations.SplitAnswersTheShares : Prop :=
  ∀ (k n : Byte) (secret : List Byte) (s : State), s.Inv → secret ≠ [] → 1 ≤ k.toNat → k.toNat ≤ n.toNat →
    n.toNat ≤ 16 → (k.toNat - 1) * secret.length ≤ s.available.length →
    exec (.split k n secret) s =
      .next ({ s with entropyIn := s.available.drop ((k.toNat - 1) * secret.length) }.answered
        (if k = 1 then s.tbl else ensureTables s.tbl)
        (0x00 :: n :: (sharesOf k.toNat n.toNat secret s.available).flatMap fun sh : Share =>
          sh.index :: BitVec.ofNat 8 sh.value.length :: sh.value))

/-- R122 (c), R151: SPLIT never answers DivisionByZero. -/
def Obligations.SplitNeverDividesByZero : Prop :=
  ∀ (k n : Byte) (secret : List Byte) (s t : State), exec (.split k n secret) s = .next t →
    t.responseOut ≠ s.responseOut ++ [[0x07]]

/-- R18, R188 (the form of the wait is the model's: log entry 5): SPLIT, its checks passed and fewer than (K-1)L bytes
delivered, waits: it has drawn what there is, is BUSY and has emitted nothing. -/
def Obligations.SplitWaitsForEntropy : Prop :=
  ∀ (k n : Byte) (secret : List Byte) (s : State), s.Inv → secret ≠ [] → 1 ≤ k.toNat → k.toNat ≤ n.toNat →
    n.toNat ≤ 16 → s.available.length < (k.toNat - 1) * secret.length →
    exec (.split k n secret) s =
      .next { s with
        tbl := if s.available.length < k.toNat - 1 then s.tbl else ensureTables s.tbl
        executor := .busy (.split k n secret) s.available
        entropyIn := [] }

/-- R18, R121 (the form of the wait is the model's: log entry 5): a SPLIT that waited goes on exactly as it would have, had
all the bytes been there at once. -/
def Obligations.WaitingSplitGoesOn : Prop :=
  ∀ (k n : Byte) (secret early late : List Byte) (s w : State), s.Inv →
    exec (.split k n secret) { s with entropyIn := early } = .next w → w.executor ≠ .idle →
    exec (.split k n secret) { w with entropyIn := late } =
      exec (.split k n secret) { s with entropyIn := early ++ late }

/-- R123, R154: the checks of RECSH in their order: an index above 15, then value lengths that differ. -/
def Obligations.RecshChecksInOrder : Prop :=
  ∀ (first : Share) (others : List Share) (s : State),
    ((∃ sh ∈ first :: others, 15 < sh.index.toNat) →
      exec (.recsh (first :: others)) s = .next (s.answered s.tbl [0x04])) ∧
    ((∀ sh ∈ first :: others, sh.index.toNat ≤ 15) → (∃ sh ∈ others, sh.value.length ≠ first.value.length) →
      exec (.recsh (first :: others)) s = .next (s.answered s.tbl [0x05]))

/-- R123, R65, R127: RECSH of shares that pass the checks and have different indices answers L and, for each position, the
Lagrange value at 255 of the shares' points; so it does where the values are empty (decision D14), whatever the indices. No
threshold is known here: by R127 fewer shares than the split's threshold give this same value, which need not be the secret;
that K or more give the secret is SplitThenRecoverReturnsTheSecret (R128). -/
def Obligations.RecshAnswersLagrangeValues : Prop :=
  ∀ (shares : List Share) (len : Nat) (s : State), s.Inv → shares ≠ [] → (∀ sh ∈ shares, sh.index.toNat ≤ 15) →
    (∀ sh ∈ shares, sh.value.length = len) → (len = 0 ∨ (shares.map Share.index).Nodup) →
    exec (.recsh shares) s =
      .next (s.answered
        (if len = 0 ∨ (shares.length = 1 ∧ ∀ sh ∈ shares, ∀ b ∈ sh.value, b = 0) then s.tbl else ensureTables s.tbl)
        (0x00 :: BitVec.ofNat 8 len ::
          (List.range len).map fun p => lagrangeAt 255 (shares.map fun sh => ⟨sh.index, sh.value.getD p 0⟩)))

/-- R123, R186: RECSH of shares that pass the checks, with values that are not empty, answers DivisionByZero where two of
them have the same index. -/
def Obligations.RecshRejectsEqualIndices : Prop :=
  ∀ (shares : List Share) (len : Nat) (s : State), s.Inv → (∀ sh ∈ shares, sh.index.toNat ≤ 15) →
    (∀ sh ∈ shares, sh.value.length = len) → len ≠ 0 → ¬ (shares.map Share.index).Nodup →
    ∃ t, (t = s.tbl ∨ t = ensureTables s.tbl) ∧ exec (.recsh shares) s = .next (s.answered t [0x07])

/-- R124: RECPT is exactly INTERP at 255. -/
def Obligations.RecptIsInterpAt255 : Prop :=
  ∀ (points : List Point) (s : State), exec (.recpt points) s = exec (.interp 255 points) s

/-- R124, R111: for points with different x, RECPT answers the Lagrange sum at 255. -/
def Obligations.RecptAnswersLagrangeSum : Prop :=
  ∀ (points : List Point) (s : State), s.Inv → points ≠ [] → DistinctX points →
    exec (.recpt points) s =
      .next (s.answered (if points.map Point.y = [0] then s.tbl else ensureTables s.tbl)
        [0x00, lagrangeAt 255 points])

/-- R129: in RECSH, the recovered byte at position p depends only on the indices and on byte p of the values. -/
def Obligations.RecshLanesAreIndependent : Prop :=
  ∀ (shares shares' : List Share) (t t' u u' : TableStore) (out out' : List Byte) (p : Nat), t.Inv → t'.Inv →
    recoverShares t shares = .ok out u → recoverShares t' shares' = .ok out' u' → p < out.length → p < out'.length →
    (shares.map fun sh : Share => (sh.index, sh.value[p]?)) = (shares'.map fun sh : Share => (sh.index, sh.value[p]?)) →
    out[p]? = out'[p]?

/-- R125: MKSHR answers InvalidShareIndex for an index above 15 and otherwise the share record as presented; nothing else
changes. -/
def Obligations.MkshrChecksAndEchoes : Prop :=
  ∀ (index : Byte) (value : List Byte) (s : State), exec (.mkshr index value) s =
    .next (s.answered s.tbl
      (if 15 < index.toNat then [0x04] else 0x00 :: index :: BitVec.ofNat 8 value.length :: value))

/-- R126: MKPT answers the two bytes as presented; it is total, and nothing else changes. -/
def Obligations.MkptEchoes : Prop :=
  ∀ (x y : Byte) (s : State), exec (.mkpt x y) s = .next (s.answered s.tbl [0x00, x, y])

/-- R128: a SPLIT that succeeds, whatever bytes it drew, answers a body that is the body of a RECSH frame with N shares, and
RECSH of any K or more different shares among them, in any order and any later state, answers the secret. -/
def Obligations.SplitThenRecoverReturnsTheSecret : Prop :=
  ∀ (k n : Byte) (secret : List Byte) (s u : State), s.Inv → u.Inv → secret ≠ [] → secret.length ≤ 255 →
    1 ≤ k.toNat → k.toNat ≤ n.toNat → n.toNat ≤ 16 → (k.toNat - 1) * secret.length ≤ s.available.length →
    ∃ (t : State) (body : List Byte) (shares : List Share),
      exec (.split k n secret) s = .next t ∧ t.responseOut = s.responseOut ++ [0x00 :: body] ∧
      decode (0x21 :: body) = .ok (.recsh shares) ∧ shares.length = n.toNat ∧
      ∀ chosen : List Share, chosen.Nodup → (∀ sh ∈ chosen, sh ∈ shares) → k.toNat ≤ chosen.length →
        ∃ tbl, exec (.recsh chosen) u =
          .next (u.answered tbl (0x00 :: BitVec.ofNat 8 secret.length :: secret))

/-! ### Reset and the invariant (10_state.md, 70_reset_and_hazards.md) -/

/-- R23, R180: after reset TBL_READY is 0 and the executor is IDLE (that the tables then hold no value and that the ports are
empty is the model's choice: log entries 1, 3, 4, 7). -/
def Obligations.ResetLeaves : Prop :=
  State.reset.tbl.ready = false ∧ State.reset.executor = .idle ∧
    State.reset.tbl.exp = [] ∧ State.reset.tbl.log = [] ∧ State.reset.commandIn = [] ∧
    State.reset.responseOut = [] ∧ State.reset.entropyIn = [] ∧ State.reset.resetAsserted = false

/-- R180: taking reset clears TBL_READY, makes the executor IDLE and abandons a command in flight with no response; the bytes
it had drawn are not returned and the source is not touched (that the tables then hold no value, and that the line is
sampled at a step's start and released, is the model's choice: log entries 1 and 7). -/
def Obligations.ResetAbandonsTheCommand : Prop :=
  ∀ s : State, s.resetAsserted = true →
    step s = .next { s with tbl := ⟨false, [], []⟩, executor := .idle, resetAsserted := false }

/-- R17, R19: the state right after reset meets the invariant. -/
def Obligations.ResetMeetsTheInvariant : Prop := State.reset.Inv

/-- R17, R19: every step keeps the invariant: ready tables hold what R83 lists, both memories are in canonical form (the
model's form, log entry 1), and only a SPLIT short of entropy is in flight (the model's form, log entries 2 and 5). -/
def Obligations.StepKeepsTheInvariant : Prop := ∀ s t : State, s.Inv → step s = .next t → t.Inv

/-- R192, R85, R52: from a state that meets the invariant no step ends in a fault or a refusal (that waiting for entropy,
idling with no frame and taking reset are steps is the model's form: log entries 5, 6 and 7). -/
def Obligations.StepNeverStops : Prop := ∀ s : State, s.Inv → ∃ t, step s = .next t
end

