-- ==== Sys2Proof/Laws/State.lean ====
section
/-! SUPPORT. The field lemmas of the state: for each update of the machine and each field, what it holds afterwards. -/

namespace Sys2Proof.Machine

@[simp] theorem State.respond_tbl (s : State) (t : TableStore) (r : Frame) : (s.respond t r).tbl = t := rfl
@[simp] theorem State.respond_executor (s : State) (t : TableStore) (r : Frame) :
    (s.respond t r).executor = .idle := rfl
@[simp] theorem State.respond_commandIn (s : State) (t : TableStore) (r : Frame) :
    (s.respond t r).commandIn = s.commandIn := rfl
@[simp] theorem State.respond_responseOut (s : State) (t : TableStore) (r : Frame) :
    (s.respond t r).responseOut = s.responseOut ++ [r] := rfl
@[simp] theorem State.respond_entropyIn (s : State) (t : TableStore) (r : Frame) :
    (s.respond t r).entropyIn = s.entropyIn := rfl
@[simp] theorem State.respond_resetAsserted (s : State) (t : TableStore) (r : Frame) :
    (s.respond t r).resetAsserted = s.resetAsserted := rfl

@[simp] theorem State.answered_tbl (s : State) (t : TableStore) (r : Frame) : (s.answered t r).tbl = t := rfl
@[simp] theorem State.answered_executor (s : State) (t : TableStore) (r : Frame) :
    (s.answered t r).executor = .idle := rfl
@[simp] theorem State.answered_commandIn (s : State) (t : TableStore) (r : Frame) :
    (s.answered t r).commandIn = s.commandIn := rfl
@[simp] theorem State.answered_responseOut (s : State) (t : TableStore) (r : Frame) :
    (s.answered t r).responseOut = s.responseOut ++ [r] := rfl
@[simp] theorem State.answered_entropyIn (s : State) (t : TableStore) (r : Frame) :
    (s.answered t r).entropyIn = s.entropyIn := rfl
@[simp] theorem State.answered_resetAsserted (s : State) (t : TableStore) (r : Frame) :
    (s.answered t r).resetAsserted = s.resetAsserted := rfl

@[simp] theorem State.raiseError_tbl (s : State) (t : TableStore) (k : ErrorKind) : (s.raiseError t k).tbl = t := rfl
@[simp] theorem State.raiseError_executor (s : State) (t : TableStore) (k : ErrorKind) :
    (s.raiseError t k).executor = .idle := rfl
@[simp] theorem State.raiseError_commandIn (s : State) (t : TableStore) (k : ErrorKind) :
    (s.raiseError t k).commandIn = s.commandIn := rfl
@[simp] theorem State.raiseError_responseOut (s : State) (t : TableStore) (k : ErrorKind) :
    (s.raiseError t k).responseOut = s.responseOut ++ [[k.status]] := rfl
@[simp] theorem State.raiseError_entropyIn (s : State) (t : TableStore) (k : ErrorKind) :
    (s.raiseError t k).entropyIn = s.entropyIn := rfl
@[simp] theorem State.raiseError_resetAsserted (s : State) (t : TableStore) (k : ErrorKind) :
    (s.raiseError t k).resetAsserted = s.resetAsserted := rfl

@[simp] theorem State.rejectFrame_tbl (s : State) (e : DecodeError) : (s.rejectFrame e).tbl = s.tbl := rfl
@[simp] theorem State.rejectFrame_executor (s : State) (e : DecodeError) : (s.rejectFrame e).executor = .idle := rfl
@[simp] theorem State.rejectFrame_commandIn (s : State) (e : DecodeError) :
    (s.rejectFrame e).commandIn = s.commandIn := rfl
@[simp] theorem State.rejectFrame_responseOut (s : State) (e : DecodeError) :
    (s.rejectFrame e).responseOut = s.responseOut ++ [[decodeStatus e]] := rfl
@[simp] theorem State.rejectFrame_entropyIn (s : State) (e : DecodeError) :
    (s.rejectFrame e).entropyIn = s.entropyIn := rfl
@[simp] theorem State.rejectFrame_resetAsserted (s : State) (e : DecodeError) :
    (s.rejectFrame e).resetAsserted = s.resetAsserted := rfl

@[simp] theorem State.waitEntropy_tbl (s : State) (t : TableStore) (i : Instr) : (s.waitEntropy t i).tbl = t := rfl
@[simp] theorem State.waitEntropy_executor (s : State) (t : TableStore) (i : Instr) :
    (s.waitEntropy t i).executor = .busy i s.available := rfl
@[simp] theorem State.waitEntropy_commandIn (s : State) (t : TableStore) (i : Instr) :
    (s.waitEntropy t i).commandIn = s.commandIn := rfl
@[simp] theorem State.waitEntropy_responseOut (s : State) (t : TableStore) (i : Instr) :
    (s.waitEntropy t i).responseOut = s.responseOut := rfl
@[simp] theorem State.waitEntropy_entropyIn (s : State) (t : TableStore) (i : Instr) :
    (s.waitEntropy t i).entropyIn = [] := rfl
@[simp] theorem State.waitEntropy_resetAsserted (s : State) (t : TableStore) (i : Instr) :
    (s.waitEntropy t i).resetAsserted = s.resetAsserted := rfl

@[simp] theorem State.takeReset_tbl (s : State) : (s.takeReset).tbl = State.reset.tbl := rfl
@[simp] theorem State.takeReset_executor (s : State) : (s.takeReset).executor = .idle := rfl
@[simp] theorem State.takeReset_commandIn (s : State) : (s.takeReset).commandIn = s.commandIn := rfl
@[simp] theorem State.takeReset_responseOut (s : State) : (s.takeReset).responseOut = s.responseOut := rfl
@[simp] theorem State.takeReset_entropyIn (s : State) : (s.takeReset).entropyIn = s.entropyIn := rfl
@[simp] theorem State.takeReset_resetAsserted (s : State) : (s.takeReset).resetAsserted = false := rfl

@[simp] theorem State.withFetchWord_tbl (s : State) (n w : Nat) : (s.withFetchWord n w).tbl = s.tbl := rfl
@[simp] theorem State.withFetchWord_executor (s : State) (n w : Nat) : (s.withFetchWord n w).executor = .idle := rfl
@[simp] theorem State.withFetchWord_commandIn (s : State) (n w : Nat) :
    (s.withFetchWord n w).commandIn = frameOfTableWord n w :: s.commandIn := rfl
@[simp] theorem State.withFetchWord_responseOut (s : State) (n w : Nat) :
    (s.withFetchWord n w).responseOut = s.responseOut := rfl
@[simp] theorem State.withFetchWord_entropyIn (s : State) (n w : Nat) :
    (s.withFetchWord n w).entropyIn = s.entropyIn := rfl
@[simp] theorem State.withFetchWord_resetAsserted (s : State) (n w : Nat) :
    (s.withFetchWord n w).resetAsserted = false := rfl

@[simp] theorem TableStore.setReady_ready (t : TableStore) : t.setReady.ready = true := rfl
@[simp] theorem TableStore.setReady_exp (t : TableStore) : t.setReady.exp = t.exp := rfl
@[simp] theorem TableStore.setReady_log (t : TableStore) : t.setReady.log = t.log := rfl

@[simp] theorem TableStore.space_exp (t : TableStore) : t.space .exp = t.exp := rfl
@[simp] theorem TableStore.space_log (t : TableStore) : t.space .log = t.log := rfl

@[simp] theorem Executor.drawn_idle : Executor.idle.drawn = [] := rfl
@[simp] theorem Executor.drawn_busy (i : Instr) (d : List Byte) : (Executor.busy i d).drawn = d := rfl

/-- The machine's way to answer is the statements' way. -/
theorem State.respond_eq_answered (s : State) (t : TableStore) (r : Frame) : s.respond t r = s.answered t r := rfl

@[simp] theorem Res.bind_ok {α β : Type} (v : α) (t : TableStore) (f : α → TableStore → Res β) :
    (Res.ok v t).bind f = f v t := rfl
@[simp] theorem Res.bind_raise {α β : Type} (k : ErrorKind) (t : TableStore) (f : α → TableStore → Res β) :
    (Res.raise k t).bind f = .raise k t := rfl
@[simp] theorem Res.bind_fault {α β : Type} (e : Fault) (f : α → TableStore → Res β) :
    (Res.fault e : Res α).bind f = .fault e := rfl

/-- Work that ends in a value went through a value. -/
theorem Res.bind_eq_ok {α β : Type} {r : Res α} {f : α → TableStore → Res β} {v : β} {t : TableStore}
    (h : r.bind f = .ok v t) : ∃ a u, r = .ok a u ∧ f a u = .ok v t := by
  cases r with
  | ok a u => exact ⟨a, u, rfl, h⟩
  | raise k u => cases h
  | fault e => cases h

/-- Work that ends in an error met it in its first part or in its second. -/
theorem Res.bind_eq_raise {α β : Type} {r : Res α} {f : α → TableStore → Res β} {k : ErrorKind} {t : TableStore}
    (h : r.bind f = .raise k t) : r = .raise k t ∨ ∃ a u, r = .ok a u ∧ f a u = .raise k t := by
  cases r with
  | ok a u => exact .inr ⟨a, u, rfl, h⟩
  | raise k' u => cases h; exact .inl rfl
  | fault e => cases h

/-- What `finish` can answer with: a fault, or the state answered with OK and the payload, or with an error's status. -/
theorem State.finish_eq_next {α : Type} {s s' : State} {p : α → List Byte} {r : Res α} (h : s.finish p r = .next s') :
    (∃ v t, r = .ok v t ∧ s' = s.answered t (0x00 :: p v)) ∨ ∃ k t, r = .raise k t ∧ s' = s.answered t [k.status] := by
  cases r with
  | ok v t => cases h; exact .inl ⟨v, t, rfl, rfl⟩
  | raise k t => cases h; exact .inr ⟨k, t, rfl, rfl⟩
  | fault e => cases h

end Sys2Proof.Machine
end

