-- ==== Sys2Proof/Laws/Memory.lean ====
section
/-! SUPPORT. The laws of one table entry: a read after a write, and that a write keeps the canonical form. -/

namespace Sys2Proof.Machine

theorem Memory.read_write_same (m : Memory) (i : Nat) (v : Byte) : (m.write i v).read i = some v := by
  induction m with
  | nil => simp [Memory.write, Memory.read]
  | cons c m ih =>
    obtain ⟨k, b⟩ := c
    unfold Memory.write
    split
    · simp [Memory.read]
    · split
      · simp [Memory.read]
      · next h => simp [Memory.read, ih, Ne.symm h]

theorem Memory.read_write_of_ne (m : Memory) {i j : Nat} (v : Byte) (h : j ≠ i) : (m.write i v).read j = m.read j := by
  induction m with
  | nil => simp [Memory.write, Memory.read, h.symm]
  | cons c m ih =>
    obtain ⟨k, b⟩ := c
    unfold Memory.write
    split
    · simp [Memory.read, h.symm]
    · split
      · next hk => subst hk; simp [Memory.read, h.symm]
      · simp [Memory.read, ih]

theorem Memory.read_write (m : Memory) (i j : Nat) (v : Byte) :
    (m.write i v).read j = if j = i then some v else m.read j := by
  split
  · next h => rw [h, read_write_same]
  · next h => exact read_write_of_ne m v h

/-- The cells of a memory after a write: the written one and others that were there. -/
theorem Memory.mem_write {m : Memory} {i : Nat} {v : Byte} {c : Host.Cell} (h : c ∈ m.write i v) :
    c = (i, v) ∨ c ∈ m := by
  induction m with
  | nil => simpa [Memory.write] using h
  | cons d m ih =>
    obtain ⟨k, b⟩ := d
    unfold Memory.write at h
    split at h
    · simpa using h
    · split at h
      · rcases List.mem_cons.1 h with rfl | h
        · exact .inl rfl
        · exact .inr (List.mem_cons_of_mem _ h)
      · rcases List.mem_cons.1 h with rfl | h
        · exact .inr List.mem_cons_self
        · exact (ih h).imp id (List.mem_cons_of_mem _)

/-- A write inside the address space keeps the canonical form. -/
theorem Memory.write_wf {m : Memory} {i : Nat} (v : Byte) (h : m.wf) (hi : i < Config.tblSize) : (m.write i v).wf := by
  obtain ⟨hp, hb⟩ := h
  refine ⟨?_, fun c hc => ?_⟩
  · induction m with
    | nil => simp [Memory.write]
    | cons c m ih =>
      obtain ⟨k, b⟩ := c
      have hp' := List.pairwise_cons.1 hp
      unfold Memory.write
      split
      · next hk =>
        refine List.pairwise_cons.2 ⟨fun d hd => ?_, hp⟩
        rcases List.mem_cons.1 hd with rfl | hd
        · exact hk
        · exact hk.trans (hp'.1 d hd)
      · split
        · next hk => subst hk; exact List.pairwise_cons.2 ⟨hp'.1, hp'.2⟩
        · refine List.pairwise_cons.2 ⟨fun d hd => ?_, ih hp'.2 fun c hc => hb c (List.mem_cons_of_mem _ hc)⟩
          rcases Memory.mem_write hd with rfl | hd
          · simp only; omega
          · exact hp'.1 d hd
  · rcases Memory.mem_write hc with rfl | hc
    · exact hi
    · exact hb c hc

/-- A memory in canonical form holds no value outside the address space. -/
theorem Memory.read_eq_none_of_wf {m : Memory} (h : m.wf) {i : Nat} (hi : Config.tblSize ≤ i) : m.read i = none := by
  have hb := h.2
  clear h
  induction m with
  | nil => rfl
  | cons c m ih =>
    obtain ⟨k, b⟩ := c
    have hk : k < Config.tblSize := hb (k, b) List.mem_cons_self
    have : k ≠ i := by omega
    simp [Memory.read, this, ih fun c hc => hb c (List.mem_cons_of_mem _ hc)]

/-- A table read gives a value exactly where the entry exists and holds one; it changes nothing. -/
theorem TableStore.readEntry_eq_ok {t u : TableStore} {sp : TableSpace} {i : Nat} {b : Byte} :
    t.readEntry sp i = .ok b u ↔ i < Config.tblSize ∧ (t.space sp).read i = some b ∧ u = t := by
  unfold TableStore.readEntry
  by_cases hi : i < Config.tblSize
  · cases h : (t.space sp).read i <;> simp [hi, eq_comm]
  · simp [hi]

/-- A table read raises no error kind. -/
theorem TableStore.readEntry_ne_raise (t u : TableStore) (sp : TableSpace) (i : Nat) (k : ErrorKind) :
    t.readEntry sp i ≠ .raise k u := by
  unfold TableStore.readEntry
  split
  · split <;> simp
  · simp

/-! ### A memory written out as consecutive entries -/

/-- The cells of consecutive entries. -/
def cells : Nat → List Byte → Memory
  | _, [] => []
  | i, b :: bs => (i, b) :: cells (i + 1) bs

theorem cells_ge (i : Nat) (bs : List Byte) : ∀ c ∈ cells i bs, i ≤ c.1 ∧ c.1 < i + bs.length := by
  induction bs generalizing i with
  | nil => intro c hc; cases hc
  | cons b bs ih =>
    intro c hc
    rw [List.length_cons]
    rcases List.mem_cons.1 hc with rfl | hc
    · exact ⟨Nat.le_refl _, by simp only; omega⟩
    · have := ih (i + 1) c hc
      omega

theorem cells_wf {i : Nat} {bs : List Byte} (h : i + bs.length ≤ Config.tblSize) : (cells i bs).wf := by
  refine ⟨?_, fun c hc => Nat.lt_of_lt_of_le (cells_ge i bs c hc).2 h⟩
  clear h
  induction bs generalizing i with
  | nil => exact List.Pairwise.nil
  | cons b bs ih => exact List.pairwise_cons.2 ⟨fun c hc => (cells_ge (i + 1) bs c hc).1, ih⟩

theorem cells_read (i j : Nat) (bs : List Byte) : (cells i bs).read (i + j) = bs[j]? := by
  induction bs generalizing i j with
  | nil => rfl
  | cons b bs ih =>
    cases j with
    | zero => simp [cells, Memory.read]
    | succ j =>
      have hne : i ≠ i + (j + 1) := by omega
      simp only [cells, Memory.read, if_neg hne, List.getElem?_cons_succ]
      rw [← ih (i + 1) j, show i + (j + 1) = i + 1 + j by omega]

end Sys2Proof.Machine
end

