-- ==== Sys2Proof/Laws/Tables.lean ====
section
/-! SUPPORT. The laws of the table build and of the lookups: what each can do, that the build keeps the canonical form, and
that a build over any contents reads as the build over none, laid over those contents. -/

namespace Sys2Proof.Machine

@[simp] theorem buildLoop_ready (n i : Nat) (v : Byte) (t : TableStore) : (buildLoop n i v t).ready = t.ready := by
  induction n generalizing i v t with
  | zero => rfl
  | succ n ih => simp [buildLoop, ih]

theorem buildLoop_wf {n i : Nat} {v : Byte} {t : TableStore} (h : t.wf) (hi : i + n ≤ Config.tblSize) :
    (buildLoop n i v t).wf := by
  induction n generalizing i v t with
  | zero => exact h
  | succ n ih =>
    exact ih ⟨Memory.write_wf v h.1 (by omega), Memory.write_wf _ h.2 v.isLt⟩ (by omega)

/-- The loop over any contents is the loop over empty tables, laid over those contents. -/
theorem buildLoop_read (n i : Nat) (v : Byte) (t : TableStore) (sp : TableSpace) (j : Nat) :
    ((buildLoop n i v t).space sp).read j =
      (((buildLoop n i v ⟨false, [], []⟩).space sp).read j).or ((t.space sp).read j) := by
  induction n generalizing i v t with
  | zero => cases sp <;> simp [buildLoop, Memory.read]
  | succ n ih =>
    simp only [buildLoop]
    rw [ih _ _ { t with exp := t.exp.write i v, log := t.log.write v.toNat (BitVec.ofNat 8 i) },
      ih _ _ ⟨false, Memory.write [] i v, Memory.write [] v.toNat (BitVec.ofNat 8 i)⟩]
    cases sp <;> simp only [TableStore.space_exp, TableStore.space_log, Memory.read_write, Option.or_assoc] <;>
      congr 1 <;> split <;> simp [Memory.read]

@[simp] theorem copyExpWrap_log (t : TableStore) : (copyExpWrap t).log = t.log := by
  unfold copyExpWrap; split <;> rfl

@[simp] theorem copyExpWrap_ready (t : TableStore) : (copyExpWrap t).ready = t.ready := by
  unfold copyExpWrap; split <;> rfl

theorem copyExpWrap_wf {t : TableStore} (h : t.wf) : (copyExpWrap t).wf := by
  unfold copyExpWrap
  split
  · exact ⟨Memory.write_wf _ h.1 (by decide), h.2⟩
  · exact h

/-- EXP after the wrap: entry 255 holds what entry 0 holds, the others are as they were. -/
theorem copyExpWrap_read_exp {t : TableStore} {b : Byte} (h : t.exp.read 0 = some b) (j : Nat) :
    (copyExpWrap t).exp.read j = if j = 255 then some b else t.exp.read j := by
  simp [copyExpWrap, h, Memory.read_write, Config.order]

@[simp] theorem buildTables_ready (t : TableStore) : (buildTables t).ready = true := rfl

theorem buildTables_wf {t : TableStore} (h : t.wf) : (buildTables t).wf := by
  have hl : (buildLoop Config.order 0 1 t).wf := buildLoop_wf h (by decide)
  unfold buildTables
  generalize buildLoop Config.order 0 1 t = u at hl
  exact copyExpWrap_wf hl

/-- `ensure_tables` builds or leaves the tables as they are. -/
theorem ensureTables_cases (t : TableStore) :
    (t.ready = true ∧ ensureTables t = t) ∨ (t.ready = false ∧ ensureTables t = buildTables t) := by
  unfold ensureTables
  cases h : t.ready <;> simp

@[simp] theorem ensureTables_ready (t : TableStore) : (ensureTables t).ready = true := by
  rcases ensureTables_cases t with ⟨h, e⟩ | ⟨_, e⟩ <;> simp [*]

theorem ensureTables_of_ready {t : TableStore} (h : t.ready = true) : ensureTables t = t := by
  simp [ensureTables, h]

@[simp] theorem ensureTables_idem (t : TableStore) : ensureTables (ensureTables t) = ensureTables t :=
  ensureTables_of_ready (ensureTables_ready t)

theorem ensureTables_wf {t : TableStore} (h : t.wf) : (ensureTables t).wf := by
  rcases ensureTables_cases t with ⟨_, e⟩ | ⟨_, e⟩ <;> rw [e]
  · exact h
  · exact buildTables_wf h

/-- What a lookup in LOG gives, and the tables after it. -/
theorem lookupLog_eq_ok {t u : TableStore} {a b : Byte} :
    lookupLog t a = .ok b u ↔ (ensureTables t).log.read a.toNat = some b ∧ u = ensureTables t := by
  have := a.isLt
  simp only [lookupLog, TableStore.readEntry_eq_ok, TableStore.space_log, Config.tblSize]
  exact and_iff_right (by omega)

/-- What a lookup in EXP gives, and the tables after it. -/
theorem lookupExp_eq_ok {t u : TableStore} {i : Nat} {b : Byte} :
    lookupExp t i = .ok b u ↔ i < Config.tblSize ∧ (ensureTables t).exp.read i = some b ∧ u = ensureTables t := by
  simp only [lookupExp, TableStore.readEntry_eq_ok, TableStore.space_exp]

theorem lookupLog_ne_raise (t u : TableStore) (a : Byte) (k : ErrorKind) : lookupLog t a ≠ .raise k u :=
  TableStore.readEntry_ne_raise _ _ _ _ _

theorem lookupExp_ne_raise (t u : TableStore) (i : Nat) (k : ErrorKind) : lookupExp t i ≠ .raise k u :=
  TableStore.readEntry_ne_raise _ _ _ _ _

end Sys2Proof.Machine
end

