-- ==== Sys2Proof/Laws/Clmul.lean ====
section
/-! SUPPORT. The slow multiply of rule R91 is additive in each operand: the lemmas that carry the field's arithmetic. -/

namespace Sys2Proof.Machine

theorem xtime_xor (a b : Byte) : xtime (a ^^^ b) = xtime a ^^^ xtime b := by
  have hs : (a ^^^ b) <<< 1 = a <<< 1 ^^^ b <<< 1 := BitVec.shiftLeft_xor_distrib _ _ _
  simp only [xtime, BitVec.getLsbD_xor, hs]
  cases a.getLsbD 7 <;> cases b.getLsbD 7 <;> simp
  · ac_rfl
  · ac_rfl
  · rw [show a <<< 1 ^^^ Config.polyLow ^^^ (b <<< 1 ^^^ Config.polyLow) =
      a <<< 1 ^^^ b <<< 1 ^^^ (Config.polyLow ^^^ Config.polyLow) by ac_rfl]
    simp

/-- The loop is additive in its running product and its first operand. -/
theorem clmulLoop_xor_left (n : Nat) (p p' a a' b : Byte) :
    clmulLoop n (p ^^^ p') (a ^^^ a') b = clmulLoop n p a b ^^^ clmulLoop n p' a' b := by
  induction n generalizing p p' a a' b with
  | zero => rfl
  | succ n ih =>
    simp only [clmulLoop, xtime_xor]
    split
    · rw [show p ^^^ p' ^^^ (a ^^^ a') = (p ^^^ a) ^^^ (p' ^^^ a') by ac_rfl, ih]
    · exact ih _ _ _ _ _

/-- The loop is additive in its running product and its second operand. -/
theorem clmulLoop_xor_right (n : Nat) (p p' a b b' : Byte) :
    clmulLoop n (p ^^^ p') a (b ^^^ b') = clmulLoop n p a b ^^^ clmulLoop n p' a b' := by
  induction n generalizing p p' a b b' with
  | zero => rfl
  | succ n ih =>
    have hs : (b ^^^ b') >>> 1 = b >>> 1 ^^^ b' >>> 1 := BitVec.ushiftRight_xor_distrib _ _ _
    simp only [clmulLoop, BitVec.getLsbD_xor, hs, ← ih]
    congr 1
    cases b.getLsbD 0 <;> cases b'.getLsbD 0 <;> simp
    · ac_rfl
    · ac_rfl
    · rw [show p ^^^ a ^^^ (p' ^^^ a) = p ^^^ p' ^^^ (a ^^^ a) by ac_rfl]; simp

theorem clmulMod_xor_left (a a' b : Byte) : clmulMod (a ^^^ a') b = clmulMod a b ^^^ clmulMod a' b :=
  clmulLoop_xor_left 8 0 0 a a' b

theorem clmulMod_xor_right (a b b' : Byte) : clmulMod a (b ^^^ b') = clmulMod a b ^^^ clmulMod a b' :=
  clmulLoop_xor_right 8 0 0 a b b'

/-- One round of the build multiplies by x + 1 (R91). -/
theorem clmulMod_gen : ∀ v : Byte, clmulMod v Config.gen = v ^^^ xtime v := by decide +kernel

end Sys2Proof.Machine
end

