-- ==== Sys2Proof/Laws/Outcomes.lean ====
section
/-! SUPPORT. What a piece of work can end in, said once: the tables after it are those before it or those with the build
done (Reach), the error kinds it may raise (Res.Within), and that it does not stop the machine (Res.NoFault). Each is carried
through `Res.bind` here, so that the lemma of an operation is a composition of the lemmas of its parts. -/

namespace Sys2Proof.Machine

/-- The tables a command can leave: the ones it found, or the ones `ensure_tables` gives (R84, R153). -/
def Reach (t u : TableStore) : Prop := u = t ∨ u = ensureTables t

theorem Reach.refl (t : TableStore) : Reach t t := .inl rfl

theorem Reach.ensure (t : TableStore) : Reach t (ensureTables t) := .inr rfl

theorem Reach.ensureTables_eq {t u : TableStore} (h : Reach t u) : ensureTables u = ensureTables t := by
  rcases h with rfl | rfl
  · rfl
  · exact ensureTables_idem t

theorem Reach.trans {t u w : TableStore} (h : Reach t u) (h' : Reach u w) : Reach t w := by
  rcases h' with rfl | rfl
  · exact h
  · exact .inr h.ensureTables_eq

theorem Reach.eq_of_ready {t u : TableStore} (h : Reach t u) (hr : t.ready = true) : u = t := by
  rcases h with rfl | rfl
  · rfl
  · exact ensureTables_of_ready hr

/-- The work leaves tables in reach and raises only kinds in `K`. -/
def Res.Within {α : Type} (t : TableStore) (K : ErrorKind → Prop) : Res α → Prop
  | .ok _ u => Reach t u
  | .raise k u => K k ∧ Reach t u
  | .fault _ => True

/-- The work does not stop the machine. -/
def Res.NoFault {α : Type} : Res α → Prop
  | .ok _ _ => True
  | .raise _ _ => True
  | .fault _ => False

theorem Res.Within.bind {α β : Type} {t : TableStore} {K : ErrorKind → Prop} {r : Res α} {f : α → TableStore → Res β}
    (h : r.Within t K) (hf : ∀ v u, (f v u).Within u K) : (r.bind f).Within t K := by
  cases r with
  | ok v u =>
    have := hf v u
    simp only [Res.bind_ok]
    cases hr : f v u with
    | ok w u' => rw [hr] at this; exact h.trans this
    | raise k u' => rw [hr] at this; exact ⟨this.1, h.trans this.2⟩
    | fault e => trivial
  | raise k u => exact h
  | fault e => trivial

theorem Res.Within.mono {α : Type} {t : TableStore} {K K' : ErrorKind → Prop} {r : Res α} (h : r.Within t K)
    (hk : ∀ k, K k → K' k) : r.Within t K' := by
  cases r with
  | ok v u => exact h
  | raise k u => exact ⟨hk k h.1, h.2⟩
  | fault e => trivial

/-- Work within reach and without faults, followed by work without faults at every store in reach. -/
theorem Res.NoFault.bind {α β : Type} {t : TableStore} {K : ErrorKind → Prop} {r : Res α} {f : α → TableStore → Res β}
    (h : r.NoFault) (hw : r.Within t K) (hf : ∀ v u, Reach t u → (f v u).NoFault) : (r.bind f).NoFault := by
  cases r with
  | ok v u => exact hf v u hw
  | raise k u => trivial
  | fault e => exact h

theorem Res.eq_of_noFault {α : Type} {r : Res α} (h : r.NoFault) : (∃ v u, r = .ok v u) ∨ ∃ k u, r = .raise k u := by
  cases r with
  | ok v u => exact .inl ⟨v, u, rfl⟩
  | raise k u => exact .inr ⟨k, u, rfl⟩
  | fault e => exact h.elim

/-- No kind at all: the work raises nothing. -/
def NoKind : ErrorKind → Prop := fun _ => False

theorem lookupLog_within (t : TableStore) (a : Byte) (K : ErrorKind → Prop) : (lookupLog t a).Within t K := by
  cases h : lookupLog t a with
  | ok v u => rw [(lookupLog_eq_ok.1 h).2]; exact Reach.ensure t
  | raise k u => exact (lookupLog_ne_raise _ _ _ _ h).elim
  | fault e => trivial

theorem lookupExp_within (t : TableStore) (i : Nat) (K : ErrorKind → Prop) : (lookupExp t i).Within t K := by
  cases h : lookupExp t i with
  | ok v u => rw [(lookupExp_eq_ok.1 h).2.2]; exact Reach.ensure t
  | raise k u => exact (lookupExp_ne_raise _ _ _ _ h).elim
  | fault e => trivial

/-! ### Lookups in built tables (R83, R84) -/

theorem r83Exp_length : Config.r83Exp.length = 256 := by decide +kernel

theorem r83Log_length : Config.r83Log.length = 255 := by decide +kernel

theorem logEntry_lt (a : Byte) : logEntry a < 256 := (Config.r83Log.getD (a.toNat - 1) 0).isLt

theorem lookupLog_of_built {t : TableStore} (hb : (ensureTables t).Built) {a : Byte} (ha : a ≠ 0) :
    lookupLog t a = .ok (BitVec.ofNat 8 (logEntry a)) (ensureTables t) := by
  have hpos : 0 < a.toNat := Nat.pos_of_ne_zero fun h => ha (BitVec.eq_of_toNat_eq h)
  have hlt := a.isLt
  have hlen := r83Log_length
  have hr := hb.2 (a.toNat - 1) (by simp only [Config.order]; omega)
  rw [Nat.sub_add_cancel hpos, List.getElem?_eq_getElem (by omega)] at hr
  rw [lookupLog_eq_ok, hr]
  simp [logEntry, List.getD_eq_getElem?_getD, List.getElem?_eq_getElem (show a.toNat - 1 < Config.r83Log.length by omega)]

theorem lookupExp_of_built {t : TableStore} (hb : (ensureTables t).Built) {i : Nat} (hi : i < 256) :
    lookupExp t i = .ok (expEntry i) (ensureTables t) := by
  have hlen := r83Exp_length
  have hr := hb.1 i hi
  rw [List.getElem?_eq_getElem (by omega)] at hr
  rw [lookupExp_eq_ok, hr]
  exact ⟨hi, by simp [expEntry, List.getD_eq_getElem?_getD, List.getElem?_eq_getElem (show i < Config.r83Exp.length by omega)], rfl⟩

end Sys2Proof.Machine
end

