-- ==== Sys2Proof/Laws/Field.lean ====
section
/-! SUPPORT. What the operations of the field unit can do: the tables they leave and the kinds they raise in every state, and
their values where the tables, once ensured, are the built ones. -/

namespace Sys2Proof.Machine

/-- The kinds a division can raise. -/
def OnlyDivision : ErrorKind → Prop := fun k => k = .divisionByZero

theorem feMul_within (t : TableStore) (a b : Byte) (K : ErrorKind → Prop) : (feMul t a b).Within t K := by
  unfold feMul
  split
  · exact Reach.refl t
  · exact (lookupLog_within t a K).bind fun _ u => (lookupLog_within u b K).bind fun _ w => lookupExp_within w _ K

theorem feDiv_within (t : TableStore) (a b : Byte) : (feDiv t a b).Within t OnlyDivision := by
  unfold feDiv
  split
  · exact ⟨rfl, Reach.refl t⟩
  · split
    · exact Reach.refl t
    · exact (lookupLog_within t a _).bind fun _ u => (lookupLog_within u b _).bind fun _ w => lookupExp_within w _ _

theorem fePowLoop_within (f : Byte) (e : Nat) (acc : Byte) (t : TableStore) (K : ErrorKind → Prop) :
    (fePowLoop f e acc t).Within t K := by
  induction e generalizing acc t with
  | zero => exact Reach.refl t
  | succ e ih => exact (feMul_within t acc f K).bind fun v u => ih v u

/-- FMUL's work where the tables, once ensured, are the built ones (R88): its value and the tables after it. -/
theorem feMul_of_built {t : TableStore} (hb : (ensureTables t).Built) (a b : Byte) :
    feMul t a b = .ok (tableProduct a b) (if a = 0 ∨ b = 0 then t else ensureTables t) := by
  unfold feMul tableProduct
  split
  · rfl
  · next h =>
    have hb' : (ensureTables (ensureTables t)).Built := by rwa [ensureTables_idem]
    obtain ⟨ha, hb0⟩ := not_or.1 h
    rw [lookupLog_of_built hb ha, Res.bind_ok, lookupLog_of_built hb' hb0, ensureTables_idem, Res.bind_ok,
      lookupExp_of_built hb' (Nat.lt_trans (Nat.mod_lt _ (by decide)) (by decide)), ensureTables_idem]
    simp [Config.order, Nat.mod_eq_of_lt (logEntry_lt a), Nat.mod_eq_of_lt (logEntry_lt b)]

/-- FDIV's work where the tables, once ensured, are the built ones (R89). -/
theorem feDiv_of_built {t : TableStore} (hb : (ensureTables t).Built) (a b : Byte) :
    feDiv t a b = if b = 0 then .raise .divisionByZero t
      else .ok (tableQuotient a b) (if a = 0 then t else ensureTables t) := by
  unfold feDiv tableQuotient
  split
  · rfl
  · next h0 =>
    split
    · rfl
    · next ha =>
      have hb' : (ensureTables (ensureTables t)).Built := by rwa [ensureTables_idem]
      rw [lookupLog_of_built hb ha, Res.bind_ok, lookupLog_of_built hb' h0, ensureTables_idem, Res.bind_ok,
        lookupExp_of_built hb' (Nat.lt_trans (Nat.mod_lt _ (by decide)) (by decide)), ensureTables_idem]
      simp [Config.order, Nat.mod_eq_of_lt (logEntry_lt a), Nat.mod_eq_of_lt (logEntry_lt b)]

theorem feMul_noFault {t : TableStore} (hb : (ensureTables t).Built) (a b : Byte) : (feMul t a b).NoFault := by
  rw [feMul_of_built hb]; trivial

theorem feDiv_noFault {t : TableStore} (hb : (ensureTables t).Built) (a b : Byte) : (feDiv t a b).NoFault := by
  rw [feDiv_of_built hb]; split <;> trivial

theorem fePowLoop_noFault (f : Byte) (e : Nat) (acc : Byte) {t : TableStore} (hb : (ensureTables t).Built) :
    (fePowLoop f e acc t).NoFault := by
  induction e generalizing acc t with
  | zero => trivial
  | succ e ih =>
    exact (feMul_noFault hb acc f).bind (feMul_within t acc f NoKind) fun v u hu => ih v (by rwa [hu.ensureTables_eq])

end Sys2Proof.Machine
end

