-- ==== Sys2Proof/Laws/Sharing.lean ====
section
/-! SUPPORT. What the interpolation engine and the orchestrator can do: the tables they leave, the kinds they raise, that they
do not stop the machine where the tables, once ensured, are the built ones, and how many bytes a run of draws takes. -/

namespace Sys2Proof.Machine

/-- The kinds `interpolate` can raise (R111). -/
def InterpolateKind : ErrorKind → Prop := fun k => k = .emptyInput ∨ k = .divisionByZero

theorem basisLoop_within (x : Byte) (i : Nat) (xi : Byte) (j : Nat) (ps : List Point) (basis : Byte) (t : TableStore) :
    (basisLoop x i xi j ps basis t).Within t OnlyDivision := by
  induction ps generalizing j basis t with
  | nil => exact Reach.refl t
  | cons p ps ih =>
    unfold basisLoop
    split
    · exact ih _ _ _
    · exact (feDiv_within t _ _).bind fun q u => (feMul_within u basis q _).bind fun v w => ih _ v w

theorem sumLoop_within (x : Byte) (points : List Point) (i : Nat) (ps : List Point) (sum : Byte) (t : TableStore) :
    (sumLoop x points i ps sum t).Within t OnlyDivision := by
  induction ps generalizing i sum t with
  | nil => exact Reach.refl t
  | cons p ps ih =>
    exact (basisLoop_within x i p.x 0 points 1 t).bind fun v u => (feMul_within u v p.y _).bind fun w z => ih _ _ z

theorem interpolate_within (t : TableStore) (x : Byte) (points : List Point) :
    (interpolate t x points).Within t InterpolateKind := by
  unfold interpolate
  split
  · exact ⟨.inl rfl, Reach.refl t⟩
  · exact (sumLoop_within x points 0 points 0 t).mono fun k hk => .inr hk

theorem interpolateEach_within (points : List Point) (xs : List Byte) (t : TableStore) :
    (interpolateEach points xs t).Within t InterpolateKind := by
  induction xs generalizing t with
  | nil => exact Reach.refl t
  | cons x xs ih => exact (interpolate_within t x points).bind fun y u => (ih u).bind fun ys w => Reach.refl w

theorem splitColumn_within (k n : Nat) (drawn : List Byte) (b : Byte) (t : TableStore) :
    (splitColumn k n drawn b t).Within t InterpolateKind := by
  unfold splitColumn
  split
  · exact Reach.refl t
  · exact (interpolateEach_within _ _ t).bind fun ys u => Reach.refl u

theorem splitLanes_within (k n : Nat) (secret avail : List Byte) (t : TableStore) :
    (splitLanes k n secret avail t).Within t InterpolateKind := by
  induction secret generalizing avail t with
  | nil => exact Reach.refl t
  | cons b secret ih =>
    unfold splitLanes
    split
    · exact Reach.refl t
    · refine (splitColumn_within k n _ b t).bind fun column u => (ih _ u).bind fun lanes w => ?_
      split <;> exact Reach.refl w

theorem recoverLanes_within (shares : List Share) (ps : List Nat) (t : TableStore) :
    (recoverLanes shares ps t).Within t InterpolateKind := by
  induction ps generalizing t with
  | nil => exact Reach.refl t
  | cons p ps ih => exact (interpolate_within t _ _).bind fun b u => (ih u).bind fun bs w => Reach.refl w

/-- The kinds `recover_shares` can raise (R123). -/
theorem recoverShares_within (t : TableStore) (shares : List Share) :
    (recoverShares t shares).Within t fun k =>
      k = .emptyInput ∨ k = .invalidShareIndex ∨ k = .sizeMismatch ∨ k = .divisionByZero := by
  unfold recoverShares
  split
  · exact ⟨.inl rfl, Reach.refl t⟩
  · split
    · exact ⟨.inr (.inl rfl), Reach.refl t⟩
    · split
      · exact ⟨.inr (.inr (.inl rfl)), Reach.refl t⟩
      · exact (recoverLanes_within _ _ t).mono fun k hk => hk.elim .inl fun h => .inr (.inr (.inr h))

/-! ### No fault -/

theorem basisLoop_noFault (x : Byte) (i : Nat) (xi : Byte) (j : Nat) (ps : List Point) (basis : Byte) {t : TableStore}
    (hb : (ensureTables t).Built) : (basisLoop x i xi j ps basis t).NoFault := by
  induction ps generalizing j basis t with
  | nil => trivial
  | cons p ps ih =>
    unfold basisLoop
    split
    · exact ih _ _ hb
    · refine (feDiv_noFault hb _ _).bind (feDiv_within t _ _) fun q u hu => ?_
      have hbu : (ensureTables u).Built := by rwa [hu.ensureTables_eq]
      exact (feMul_noFault hbu _ _).bind (feMul_within u _ _ NoKind) fun v w hw => ih _ _ (by rwa [hw.ensureTables_eq])

theorem sumLoop_noFault (x : Byte) (points : List Point) (i : Nat) (ps : List Point) (sum : Byte) {t : TableStore}
    (hb : (ensureTables t).Built) : (sumLoop x points i ps sum t).NoFault := by
  induction ps generalizing i sum t with
  | nil => trivial
  | cons p ps ih =>
    refine (basisLoop_noFault x i p.x 0 points 1 hb).bind (basisLoop_within x i p.x 0 points 1 t) fun v u hu => ?_
    have hbu : (ensureTables u).Built := by rwa [hu.ensureTables_eq]
    exact (feMul_noFault hbu _ _).bind (feMul_within u _ _ NoKind) fun v w hw => ih _ _ (by rwa [hw.ensureTables_eq])

theorem interpolate_noFault {t : TableStore} (hb : (ensureTables t).Built) (x : Byte) (points : List Point) :
    (interpolate t x points).NoFault := by
  unfold interpolate
  split
  · trivial
  · exact sumLoop_noFault x points 0 points 0 hb

theorem interpolateEach_noFault (points : List Point) (xs : List Byte) {t : TableStore} (hb : (ensureTables t).Built) :
    (interpolateEach points xs t).NoFault := by
  induction xs generalizing t with
  | nil => trivial
  | cons x xs ih =>
    refine (interpolate_noFault hb x points).bind (interpolate_within t x points) fun y u hu => ?_
    exact (ih (by rwa [hu.ensureTables_eq])).bind (interpolateEach_within points xs u) fun _ _ _ => trivial

theorem splitColumn_noFault (k n : Nat) (drawn : List Byte) (b : Byte) {t : TableStore} (hb : (ensureTables t).Built) :
    (splitColumn k n drawn b t).NoFault := by
  unfold splitColumn
  split
  · trivial
  · exact (interpolateEach_noFault _ _ hb).bind (interpolateEach_within _ _ t) fun _ _ _ => trivial

theorem splitLanes_noFault (k n : Nat) (secret avail : List Byte) {t : TableStore} (hb : (ensureTables t).Built) :
    (splitLanes k n secret avail t).NoFault := by
  induction secret generalizing avail t with
  | nil => trivial
  | cons b secret ih =>
    unfold splitLanes
    split
    · trivial
    · refine (splitColumn_noFault k n _ b hb).bind (splitColumn_within k n _ b t) fun column u hu => ?_
      refine (ih _ (by rwa [hu.ensureTables_eq])).bind (splitLanes_within k n secret _ u) fun lanes w _ => ?_
      split <;> trivial

theorem split_noFault (k n : Nat) (secret avail : List Byte) {t : TableStore} (hb : (ensureTables t).Built) :
    (split t k n secret avail).NoFault := by
  unfold split
  repeat' split
  all_goals first | trivial | exact splitLanes_noFault k n secret avail hb

theorem recoverLanes_noFault (shares : List Share) (ps : List Nat) {t : TableStore} (hb : (ensureTables t).Built) :
    (recoverLanes shares ps t).NoFault := by
  induction ps generalizing t with
  | nil => trivial
  | cons p ps ih =>
    refine (interpolate_noFault hb _ _).bind (interpolate_within t _ _) fun y u hu => ?_
    exact (ih (by rwa [hu.ensureTables_eq])).bind (recoverLanes_within shares ps u) fun _ _ _ => trivial

theorem recoverShares_noFault {t : TableStore} (hb : (ensureTables t).Built) (shares : List Share) :
    (recoverShares t shares).NoFault := by
  unfold recoverShares
  repeat' split
  all_goals first | trivial | exact recoverLanes_noFault _ _ hb

/-! ### Draws (R18, R121) -/

/-- A run of draws takes its bytes from the front, and succeeds exactly where there are enough. -/
theorem drawMany_eq (n : Nat) (avail : List Byte) :
    drawMany n avail = if n ≤ avail.length then some (avail.take n, avail.drop n) else none := by
  induction n generalizing avail with
  | zero => simp [drawMany]
  | succ n ih =>
    cases avail with
    | nil => simp [drawMany, draw]
    | cons b avail =>
      simp only [drawMany, draw, ih]
      by_cases h : n ≤ avail.length <;> simp [h]

/-- The error kinds of `split`, each at its check, and the lanes where all four pass (R121). -/
theorem split_of_checks {t : TableStore} {k n : Nat} {secret avail : List Byte} (h0 : secret ≠ []) (h1 : k ≠ 0)
    (h2 : k ≤ n) (h3 : n ≤ Config.nMax) : split t k n secret avail = splitLanes k n secret avail t := by
  simp [split, h0, h1, Nat.not_lt.2 h2, Nat.not_lt.2 h3]

end Sys2Proof.Machine
end

