-- ==== Sys2Proof/Laws/Exec.lean ====
section
/-! SUPPORT. What a command and a step can do, said once: the inversion lemmas of exec, runExecutor and step, and the
agreement of decode with its formats that every statement about a fetched command goes through. -/

namespace Sys2Proof.Machine

/-- A finished piece of work answers: some response, tables in reach, every other field as it was. -/
theorem State.finish_next {α : Type} {s s' : State} {p : α → List Byte} {r : Res α} {K : ErrorKind → Prop}
    (hw : r.Within s.tbl K) (h : s.finish p r = .next s') :
    ∃ t response, Reach s.tbl t ∧ s' = s.answered t response := by
  rcases State.finish_eq_next h with ⟨v, t, hr, e⟩ | ⟨k, t, hr, e⟩ <;> subst hr
  · exact ⟨t, _, hw, e⟩
  · exact ⟨t, _, hw.2, e⟩

theorem split_within (t : TableStore) (k n : Nat) (secret avail : List Byte) :
    (split t k n secret avail).Within t fun _ => True := by
  unfold split
  repeat' split
  all_goals first
    | exact ⟨trivial, Reach.refl t⟩
    | exact (splitLanes_within k n secret avail t).mono fun _ _ => trivial

/-- SPLIT answers, having taken bytes from the source, or waits (R121, R18). -/
theorem execSplit_next {k n : Byte} {secret : List Byte} {s s' : State} (h : execSplit k n secret s = .next s') :
    ∃ t, Reach s.tbl t ∧
      ((∃ rest response, s' = { s with entropyIn := rest }.answered t response) ∨
        s' = s.waitEntropy t (.split k n secret)) := by
  have hw := split_within s.tbl k.toNat n.toNat secret s.available
  unfold execSplit at h
  split at h
  · next rest t hs => cases h; rw [hs] at hw; exact ⟨t, hw, .inl ⟨_, _, rfl⟩⟩
  · next t hs => cases h; rw [hs] at hw; exact ⟨t, hw, .inr rfl⟩
  · next k t hs => cases h; rw [hs] at hw; exact ⟨t, hw.2, .inl ⟨s.entropyIn, _, rfl⟩⟩
  · cases h

/-- All that a command can do: it answers with one response, the tables it found or the ensured ones, and (SPLIT only) bytes
taken from the source; or, SPLIT only, it waits. -/
theorem exec_next {i : Instr} {s s' : State} (h : exec i s = .next s') :
    ∃ t, Reach s.tbl t ∧
      ((∃ response, s' = s.answered t response) ∨
        ∃ k n secret, i = .split k n secret ∧
          ((∃ rest response, s' = { s with entropyIn := rest }.answered t response) ∨ s' = s.waitEntropy t i)) := by
  cases i with
  | split k n secret =>
    obtain ⟨t, ht, h⟩ := execSplit_next h
    exact ⟨t, ht, .inr ⟨k, n, secret, rfl, h⟩⟩
  | fadd a b => cases h; exact ⟨_, Reach.refl _, .inl ⟨_, rfl⟩⟩
  | fsub a b => cases h; exact ⟨_, Reach.refl _, .inl ⟨_, rfl⟩⟩
  | mkpt x y => cases h; exact ⟨_, Reach.refl _, .inl ⟨_, rfl⟩⟩
  | fmul a b =>
    obtain ⟨t, r, ht, h⟩ := State.finish_next (feMul_within s.tbl a b NoKind) h
    exact ⟨t, ht, .inl ⟨r, h⟩⟩
  | fdiv a b =>
    obtain ⟨t, r, ht, h⟩ := State.finish_next (feDiv_within s.tbl a b) h
    exact ⟨t, ht, .inl ⟨r, h⟩⟩
  | fpow f e =>
    obtain ⟨t, r, ht, h⟩ := State.finish_next (fePowLoop_within f e.toNat 1 s.tbl NoKind) h
    exact ⟨t, ht, .inl ⟨r, h⟩⟩
  | interp x points =>
    obtain ⟨t, r, ht, h⟩ := State.finish_next (interpolate_within s.tbl x points) h
    exact ⟨t, ht, .inl ⟨r, h⟩⟩
  | recsh shares =>
    obtain ⟨t, r, ht, h⟩ := State.finish_next (recoverShares_within s.tbl shares) h
    exact ⟨t, ht, .inl ⟨r, h⟩⟩
  | recpt points =>
    obtain ⟨t, r, ht, h⟩ := State.finish_next (interpolate_within s.tbl Config.xSecret points) h
    exact ⟨t, ht, .inl ⟨r, h⟩⟩
  | mkshr index value =>
    have hw : (mkShare s.tbl index value).Within s.tbl fun _ => True := by
      unfold mkShare; split
      · exact ⟨trivial, Reach.refl _⟩
      · exact Reach.refl _
    obtain ⟨t, r, ht, h⟩ := State.finish_next hw h
    exact ⟨t, ht, .inl ⟨r, h⟩⟩

/-- All that a step can do: reset; nothing, in IDLE with no frame; reject the frame taken; run the command taken; go on with
the command in flight. -/
theorem step_next {s s' : State} (h : step s = .next s') :
    (s.resetAsserted = true ∧ s' = s.takeReset) ∨
      s.resetAsserted = false ∧
        ((s.executor = .idle ∧ s.commandIn = [] ∧ s' = s) ∨
          (∃ f rest, s.executor = .idle ∧ s.commandIn = f :: rest ∧
            ((∃ e, decode f = .error e ∧ s' = { s with commandIn := rest }.answered s.tbl [decodeStatus e]) ∨
              ∃ i, decode f = .ok i ∧ exec i { s with commandIn := rest } = .next s')) ∨
          ∃ i drawn, s.executor = .busy i drawn ∧ exec i s = .next s') := by
  unfold step at h
  split at h
  · next hr => cases h; exact .inl ⟨hr, rfl⟩
  · next hr =>
    refine .inr ⟨by simpa using hr, ?_⟩
    unfold runExecutor at h
    split at h
    · next i drawn he => exact .inr (.inr ⟨i, drawn, he, h⟩)
    · next he =>
      unfold State.takeFrame at h
      cases hc : s.commandIn with
      | nil => rw [hc] at h; cases h; exact .inl ⟨he, rfl, rfl⟩
      | cons f rest =>
        rw [hc] at h
        refine .inr (.inl ⟨f, rest, he, rfl, ?_⟩)
        simp only [runFrame] at h
        split at h
        · next e hd => cases h; exact .inl ⟨e, hd, rfl⟩
        · next i hd => exact .inr ⟨i, hd, h⟩

/-! ### Where the tables, once ensured, are the built ones, no command stops the machine -/

theorem State.finish_of_noFault {α : Type} (s : State) (p : α → List Byte) {r : Res α} (h : r.NoFault) :
    ∃ s', s.finish p r = .next s' := by
  rcases Res.eq_of_noFault h with ⟨v, u, rfl⟩ | ⟨k, u, rfl⟩ <;> exact ⟨_, rfl⟩

theorem exec_of_built (i : Instr) {s : State} (hb : (ensureTables s.tbl).Built) : ∃ s', exec i s = .next s' := by
  cases i with
  | split k n secret =>
    have h := split_noFault k.toNat n.toNat secret s.available hb
    simp only [exec, execSplit]
    rcases Res.eq_of_noFault h with ⟨v, u, e⟩ | ⟨k, u, e⟩ <;> rw [e]
    · cases v <;> exact ⟨_, rfl⟩
    · exact ⟨_, rfl⟩
  | fadd a b => exact ⟨_, rfl⟩
  | fsub a b => exact ⟨_, rfl⟩
  | mkpt x y => exact ⟨_, rfl⟩
  | fmul a b => exact s.finish_of_noFault _ (feMul_noFault hb a b)
  | fdiv a b => exact s.finish_of_noFault _ (feDiv_noFault hb a b)
  | fpow f e => exact s.finish_of_noFault _ (fePowLoop_noFault f e.toNat 1 hb)
  | interp x points => exact s.finish_of_noFault _ (interpolate_noFault hb x points)
  | recsh shares => exact s.finish_of_noFault _ (recoverShares_noFault hb shares)
  | recpt points => exact s.finish_of_noFault _ (interpolate_noFault hb Config.xSecret points)
  | mkshr index value =>
    refine s.finish_of_noFault _ ?_
    unfold mkShare; split <;> trivial

end Sys2Proof.Machine
end

