-- ==== Sys2Proof/Laws/PerInstr.lean ====
section
/-! SUPPORT. One statement family over the constructors of Instr, about the command as syntax: the frame that carries a
command has the length its own count and length fields demand (rule R67), at most 65,537 bytes (rule R43). -/

namespace Sys2Proof

/-- The count byte of a sequence that a frame can carry is exact (R51). -/
theorem countByte_toNat {α : Type} {l : List α} (h : l.length ≤ 255) : (countByte l).toNat = l.length := by
  simp only [countByte, BitVec.toNat_ofNat]
  omega

theorem flatMap_bytes_length (points : List Point) : (points.flatMap Point.bytes).length = 2 * points.length := by
  induction points with
  | nil => rfl
  | cons p ps ih => simp only [List.flatMap_cons, List.length_append, ih, List.length_cons, Point.bytes, List.length_nil]; omega

theorem record_length (sh : Share) : sh.record.length = 2 + sh.value.length := by
  simp only [Share.record, List.length_cons]; omega

/-- Walking the records of shares that a frame can carry gives their length. -/
theorem recordsLength_records {shares : List Share} (h : ∀ sh ∈ shares, sh.wf = true) :
    recordsLength shares.length (shares.flatMap Share.record) = (shares.flatMap Share.record).length := by
  induction shares with
  | nil => rfl
  | cons sh shares ih =>
    have hl : sh.value.length ≤ 255 := of_decide_eq_true (h sh List.mem_cons_self)
    have h1 : byteAt (sh.record ++ shares.flatMap Share.record) 1 = countByte sh.value := rfl
    rw [List.flatMap_cons, List.length_cons, recordsLength, h1, countByte_toNat hl, ← record_length sh, List.drop_left,
      ih fun x hx => h x (List.mem_cons_of_mem _ hx), List.length_append]

theorem records_length_le {shares : List Share} (h : ∀ sh ∈ shares, sh.wf = true) :
    (shares.flatMap Share.record).length ≤ 257 * shares.length := by
  induction shares with
  | nil => exact Nat.le_refl _
  | cons sh shares ih =>
    have hl : sh.value.length ≤ 255 := of_decide_eq_true (h sh List.mem_cons_self)
    have hr := record_length sh
    have := ih fun x hx => h x (List.mem_cons_of_mem _ hx)
    rw [List.flatMap_cons, List.length_append, List.length_cons]
    omega

namespace Laws.FrameLength

/-- The frame of a well-formed command has the length its format demands, and at most 65,537 bytes (R67, R43). -/
def Statement (i : Instr) : Prop :=
  i.wf = true → formatLength (encode i) = some (encode i).length ∧ (encode i).length ≤ 65537

theorem fadd (a b : Byte) : Statement (.fadd a b) := fun _ => ⟨rfl, by simp [encode]⟩
theorem fsub (a b : Byte) : Statement (.fsub a b) := fun _ => ⟨rfl, by simp [encode]⟩
theorem fmul (a b : Byte) : Statement (.fmul a b) := fun _ => ⟨rfl, by simp [encode]⟩
theorem fdiv (a b : Byte) : Statement (.fdiv a b) := fun _ => ⟨rfl, by simp [encode]⟩
theorem fpow (f e : Byte) : Statement (.fpow f e) := fun _ => ⟨rfl, by simp [encode]⟩
theorem mkpt (x y : Byte) : Statement (.mkpt x y) := fun _ => ⟨rfl, by simp [encode]⟩

theorem interp (x : Byte) (points : List Point) : Statement (.interp x points) := fun h => by
  have hl : points.length ≤ 255 := of_decide_eq_true h
  have hf : formatLength (encode (.interp x points)) = some (3 + 2 * (countByte points).toNat) := rfl
  rw [hf, countByte_toNat hl]
  simp only [encode, List.length_cons, flatMap_bytes_length, Option.some.injEq]
  omega

theorem recpt (points : List Point) : Statement (.recpt points) := fun h => by
  have hl : points.length ≤ 255 := of_decide_eq_true h
  have hf : formatLength (encode (.recpt points)) = some (2 + 2 * (countByte points).toNat) := rfl
  rw [hf, countByte_toNat hl]
  simp only [encode, List.length_cons, flatMap_bytes_length, Option.some.injEq]
  omega

theorem split (k n : Byte) (secret : List Byte) : Statement (.split k n secret) := fun h => by
  have hl : secret.length ≤ 255 := of_decide_eq_true h
  have hf : formatLength (encode (.split k n secret)) = some (4 + (countByte secret).toNat) := rfl
  rw [hf, countByte_toNat hl]
  simp only [encode, List.length_cons, Option.some.injEq]
  omega

theorem mkshr (index : Byte) (value : List Byte) : Statement (.mkshr index value) := fun h => by
  have hl : value.length ≤ 255 := of_decide_eq_true h
  have hf : formatLength (encode (.mkshr index value)) = some (3 + (countByte value).toNat) := rfl
  rw [hf, countByte_toNat hl]
  simp only [encode, List.length_cons, Option.some.injEq]
  omega

theorem recsh (shares : List Share) : Statement (.recsh shares) := fun h => by
  obtain ⟨hn, hs⟩ := Bool.and_eq_true_iff.1 h
  have hl : shares.length ≤ 255 := of_decide_eq_true hn
  have hs := List.all_eq_true.1 hs
  have hf : formatLength (encode (.recsh shares)) =
      some (2 + recordsLength (countByte shares).toNat (shares.flatMap Share.record)) := rfl
  have hle := records_length_le hs
  rw [hf, countByte_toNat hl, recordsLength_records hs]
  simp only [encode, List.length_cons, Option.some.injEq]
  omega

end Laws.FrameLength

end Sys2Proof
end

