-- ==== Sys2Proof/Tests/Slice0.lean ====
section
/-! SUPPORT. The model's own tests. Expected results are the spec's: the frames of 30_encoding.md written out from its format
tables, and the vectors of 95_test_vectors.md. Then one witness for the hypotheses of each statement that has any. -/

-- One theorem at a time: many kernel evaluations side by side would each hold a thread's stack.
set_option Elab.async false

namespace Sys2Proof.Machine.Tests

/-! ### States to test on -/

/-- The tables as R83 prints them; LOG[0] holds no value. -/
def printedTables : TableStore := ⟨true, cells 0 Config.r83Exp, cells 1 Config.r83Log⟩

/-- An idle unit whose tables are built. -/
def readyState : State := { State.reset with tbl := printedTables }

/-- A SPLIT 2, 2 of three bytes that has drawn one of the three bytes it needs. -/
def waitingState : State := { readyState with executor := .busy (.split 2 2 [0x41, 0x42, 0x43]) [0x0A] }

/-- A SPLIT 3, 5 of two bytes that has drawn one of the two bytes its first position needs. -/
def drawingState : State := { readyState with executor := .busy (.split 3 5 [0x53, 0xCA]) [0x11] }

/-- The state with a frame presented and bytes delivered. -/
def presenting (s : State) (f : Frame) (entropy : List Byte) : State := { s with commandIn := [f], entropyIn := entropy }

/-- The responses after a step; none where the machine stops. -/
def responses (o : Host.Outcome State Fault Refusal) : Option (List Frame) :=
  match o with
  | .next s => some s.responseOut
  | .fault _ => none
  | .refused _ => none

/-- A step whose responses evaluate answers a next state with them. -/
theorem exists_next_of_responses {o : Host.Outcome State Fault Refusal} {rs : List Frame} (h : responses o = some rs) :
    ∃ t, o = .next t ∧ t.responseOut = rs := by
  cases o with
  | next t => exact ⟨t, rfl, Option.some.inj h⟩
  | fault f => cases h
  | refused r => cases h

/-- TBL_READY and the responses after a command; `none` where the machine stops. -/
def readyAndResponses (o : Host.Outcome State Fault Refusal) : Option (Bool × List Frame) :=
  match o with
  | .next t => some (t.tbl.ready, t.responseOut)
  | .fault _ => none
  | .refused _ => none

/-! ### WellFormed refuses what no frame can carry (R51, R6) -/

theorem test_wf_interp_256_points : (Instr.interp 0 (List.replicate 256 ⟨0, 0⟩)).wf = false := by decide +kernel
theorem test_wf_interp_255_points : (Instr.interp 0 (List.replicate 255 ⟨0, 0⟩)).wf = true := by decide +kernel
theorem test_wf_split_256_bytes : (Instr.split 1 1 (List.replicate 256 0)).wf = false := by decide +kernel
theorem test_wf_recsh_256_shares : (Instr.recsh (List.replicate 256 ⟨0, []⟩)).wf = false := by decide +kernel
theorem test_wf_recsh_long_value : (Instr.recsh [⟨0, List.replicate 256 0⟩]).wf = false := by decide +kernel
theorem test_wf_recpt_256_points : (Instr.recpt (List.replicate 256 ⟨0, 0⟩)).wf = false := by decide +kernel
theorem test_wf_mkshr_256_bytes : (Instr.mkshr 0 (List.replicate 256 0)).wf = false := by decide +kernel

/-! ### Decoding: words written out from the format tables (R57 to R64) -/

theorem test_decode_fadd : decode [0b00000001, 0x57, 0x83] = .ok (.fadd 0x57 0x83) := by decide
theorem test_decode_fsub : decode [0b00000010, 0x57, 0x83] = .ok (.fsub 0x57 0x83) := by decide
theorem test_decode_fmul : decode [0b00000011, 0x07, 0x03] = .ok (.fmul 0x07 0x03) := by decide
theorem test_decode_fdiv : decode [0b00000100, 0x09, 0x03] = .ok (.fdiv 0x09 0x03) := by decide
theorem test_decode_fpow : decode [0b00000101, 0x02, 0x08] = .ok (.fpow 0x02 0x08) := by decide
theorem test_decode_interp : decode [0b00010000, 0xFF, 0x02, 0x01, 0x10, 0x02, 0x20] =
    .ok (.interp 0xFF [⟨0x01, 0x10⟩, ⟨0x02, 0x20⟩]) := by decide
theorem test_decode_split : decode [0b00100000, 0x02, 0x03, 0x02, 0x7F, 0x80] = .ok (.split 2 3 [0x7F, 0x80]) := by decide
theorem test_decode_recsh : decode [0b00100001, 0x02, 0x01, 0x02, 0xAA, 0xBB, 0x02, 0x01, 0xCC] =
    .ok (.recsh [⟨0x01, [0xAA, 0xBB]⟩, ⟨0x02, [0xCC]⟩]) := by decide
theorem test_decode_recpt : decode [0b00100010, 0x02, 0x01, 0x10, 0x02, 0x20] =
    .ok (.recpt [⟨0x01, 0x10⟩, ⟨0x02, 0x20⟩]) := by decide
theorem test_decode_mkshr : decode [0b00110000, 0x0F, 0x02, 0x01, 0x02] = .ok (.mkshr 0x0F [0x01, 0x02]) := by decide
theorem test_decode_mkpt : decode [0b00110001, 0xFF, 0x00] = .ok (.mkpt 0xFF 0x00) := by decide

/-- R55, section 2.11 of the vectors: reserved opcodes whatever the length. -/
theorem test_decode_reserved : decode [0x00] = .error .badCommand ∧ decode [0x06, 0x01, 0x02] = .error .badCommand ∧
    decode [0x11] = .error .badCommand ∧ decode [0xFF, 0x00, 0x00] = .error .badCommand := by decide

/-- R55, sections 2.8, 2.10 and 2.11 of the vectors: the empty frame and wrong lengths. -/
theorem test_decode_wrong_length : decode [] = .error .badFrame ∧ decode [0x03, 0x01] = .error .badFrame ∧
    decode [0x03, 0x01, 0x02, 0x03] = .error .badFrame ∧ decode [0x10, 0x05] = .error .badFrame ∧
    decode [0x10, 0x05, 0x02, 0x01, 0x01] = .error .badFrame ∧ decode [0x22] = .error .badFrame ∧
    decode [0x20, 0x03, 0x05] = .error .badFrame ∧ decode [0x20, 0x03, 0x05, 0x02, 0xAA] = .error .badFrame ∧
    decode [0x21, 0x02, 0x01, 0x02, 0xAA] = .error .badFrame ∧
    decode [0x21, 0x01, 0x01, 0x01, 0xAA, 0x00] = .error .badFrame ∧
    decode [0x30, 0x00, 0x02, 0x01] = .error .badFrame ∧ decode [0x31, 0xFF] = .error .badFrame := by decide

/-- An opcode-table word of one byte stands for the shortest frame of its command. -/
theorem test_table_word : decodeTableWord 8 0x20 = some (.split 0 0 []) ∧ decodeTableWord 24 0x830401 = some (.fadd 4 0x83) ∧
    decodeTableWord 16 0x0222 = some (.recpt [⟨0, 0⟩, ⟨0, 0⟩]) ∧ decodeTableWord 8 0x06 = none := by decide

/-! ### The tables (R82, R83, R91) -/

/-- R91: the products the rule gives, and G1's check. -/
theorem test_clmul : clmulMod 1 3 = 3 ∧ clmulMod 3 3 = 5 ∧ clmulMod 0xFF 3 = 0x1A ∧ clmulMod 0xF6 3 = 0x01 ∧
    clmulMod 0x57 0x83 = 0xC1 := by decide

/-- Section 2.1 of the vectors: spot values of the first 27 rounds of the build. -/
theorem test_build_spots : let t := buildLoop 27 0 1 State.reset.tbl
    t.exp.read 8 = some 0x1A ∧ t.exp.read 26 = some 0x06 ∧ t.log.read 0x02 = some 0x19 ∧ t.log.read 0xFF = some 0x07 ∧
      t.log.read 0 = none := by decide +kernel

/-! ### Commands: vectors of 95_test_vectors.md, one step each -/

theorem test_fadd : responses (step (presenting readyState [0x01, 0x57, 0x83] [])) = some [[0x00, 0xD4]] := by decide +kernel
theorem test_fsub_no_borrow : responses (step (presenting readyState [0x02, 0x80, 0x01] [])) = some [[0x00, 0x81]] := by
  decide +kernel
theorem test_fmul_index_sum_508 : responses (step (presenting readyState [0x03, 0xF6, 0xF6] [])) = some [[0x00, 0x52]] := by
  decide +kernel
theorem test_fmul_index_sum_255 : responses (step (presenting readyState [0x03, 0x02, 0x8D] [])) = some [[0x00, 0x01]] := by
  decide +kernel
theorem test_fdiv_negative_difference : responses (step (presenting readyState [0x04, 0x03, 0x02] [])) = some [[0x00, 0x8C]] := by
  decide +kernel
theorem test_fdiv_zero_by_zero : responses (step (presenting readyState [0x04, 0x00, 0x00] [])) = some [[0x07]] := by
  decide +kernel
theorem test_fpow_reduces : responses (step (presenting readyState [0x05, 0x02, 0x08] [])) = some [[0x00, 0x1B]] := by
  decide +kernel
theorem test_fpow_zero_zero : responses (step (presenting readyState [0x05, 0x00, 0x00] [])) = some [[0x00, 0x01]] := by
  decide +kernel
theorem test_interp : responses (step (presenting readyState [0x10, 0xFF, 0x02, 0x01, 0x10, 0x02, 0x20] [])) =
    some [[0x00, 0x69]] := by decide +kernel
theorem test_interp_duplicate : responses (step (presenting readyState [0x10, 0x04, 0x02, 0x04, 0x10, 0x04, 0x99] [])) =
    some [[0x07]] := by decide +kernel
theorem test_split_two_of_three : responses (step (presenting readyState [0x20, 0x02, 0x03, 0x01, 0x7F] [0x02])) =
    some [[0x00, 0x03, 0x00, 0x01, 0x02, 0x01, 0x01, 0xB9, 0x02, 0x01, 0x6F]] := by decide +kernel
theorem test_split_check_order : responses (step (presenting readyState [0x20, 0x14, 0x11, 0x01, 0xAA] [])) =
    some [[0x02]] := by decide +kernel
theorem test_recsh_three_of_five : responses (step (presenting readyState [0x21, 0x03, 0x04, 0x02, 0x9D, 0x2E, 0x00, 0x02,
    0x11, 0x33, 0x02, 0x02, 0x9E, 0x0F] [])) = some [[0x00, 0x02, 0x53, 0xCA]] := by decide +kernel
theorem test_recsh_index_before_size : responses (step (presenting readyState [0x21, 0x02, 0x01, 0x01, 0xAA, 0x10, 0x02,
    0xCC, 0xDD] [])) = some [[0x04]] := by decide +kernel
theorem test_recpt : responses (step (presenting readyState [0x22, 0x02, 0xFF, 0x10, 0x02, 0x20] [])) =
    some [[0x00, 0x10]] := by decide +kernel
theorem test_mkshr_index_16 : responses (step (presenting readyState [0x30, 0x10, 0x02, 0x01, 0x02] [])) = some [[0x04]] := by
  decide +kernel
theorem test_mkshr_empty_value : responses (step (presenting readyState [0x30, 0x00, 0x00] [])) =
    some [[0x00, 0x00, 0x00]] := by decide +kernel
theorem test_mkpt : responses (step (presenting readyState [0x31, 0xFF, 0x00] [])) = some [[0x00, 0xFF, 0x00]] := by
  decide +kernel

/-- Program P1, command 3: a product with a zero operand builds no tables. -/
theorem test_zero_operand_builds_nothing :
    readyAndResponses (exec (.fmul 0 0x55) State.reset) = some (false, [[0x00, 0x00]]) := by decide +kernel

/-- Program P1, command 8, R84: the first lookup builds the tables. -/
theorem test_first_lookup_builds (u : TableStore) (b : Byte) (h : lookupLog State.reset.tbl 7 = .ok b u) :
    u = buildTables State.reset.tbl := (lookupLog_eq_ok.1 h).2

/-- R113: where the first division meets the duplicate, no table is built. -/
theorem test_duplicate_before_any_lookup :
    readyAndResponses (exec (.interp 7 [⟨4, 0x10⟩, ⟨4, 0x10⟩]) State.reset) = some (false, [[0x07]]) := by decide +kernel

/-! ### Waiting and reset (R18, R180) -/

/-- R18: with one byte of three delivered, SPLIT is BUSY with that byte drawn and has answered nothing. -/
theorem test_split_waits :
    (match step (presenting readyState [0x20, 0x02, 0x02, 0x03, 0x41, 0x42, 0x43] [0x0A]) with
      | .next t => decide (t.executor = waitingState.executor ∧ t.entropyIn = [] ∧ t.responseOut = [] ∧ t.commandIn = [])
      | .fault _ => false
      | .refused _ => false) = true := by decide +kernel

/-- R18, section 2.7 of the vectors: the bytes that arrive later finish the command. -/
theorem test_split_goes_on : responses (step { waitingState with entropyIn := [0x0B, 0x0C] }) =
    some [[0x00, 0x02, 0x00, 0x03, 0x0A, 0x0B, 0x0C, 0x01, 0x03, 0x8F, 0xB6, 0xF9]] := by decide +kernel

/-- R180: reset abandons the waiting command; its drawn byte is gone, the source's bytes stay. -/
theorem test_reset_while_waiting :
    step { waitingState with entropyIn := [0x22], resetAsserted := true } =
      .next { State.reset with entropyIn := [0x22] } := rfl

/-! ### Witnesses: the hypotheses of each statement can be met -/

theorem printed_inv : printedTables.Inv :=
  ⟨⟨cells_wf (by decide +kernel), cells_wf (by decide +kernel)⟩, fun _ =>
    ⟨fun i _ => by
      have h := cells_read 0 i Config.r83Exp
      rwa [Nat.zero_add] at h, fun i _ => by
      rw [Nat.add_comm]; exact cells_read 1 i Config.r83Log⟩⟩

theorem reset_inv : State.reset.Inv :=
  ⟨⟨⟨⟨List.Pairwise.nil, by decide⟩, ⟨List.Pairwise.nil, by decide⟩⟩, fun h => by cases h⟩, trivial⟩

theorem ready_inv : readyState.Inv := ⟨printed_inv, trivial⟩

theorem waiting_inv : waitingState.Inv := ⟨printed_inv, by refine ⟨?_, ?_, ?_, ?_, ?_⟩ <;> decide⟩

theorem drawing_inv : drawingState.Inv := ⟨printed_inv, by refine ⟨?_, ?_, ?_, ?_, ?_⟩ <;> decide⟩

/-- A zero operand and two nonzero ones. -/
theorem witness_FmulAnswersTableProduct : State.reset.Inv ∧ readyState.Inv ∧ waitingState.Inv ∧
    ((0 : Byte) = 0 ∨ (5 : Byte) = 0) ∧ ¬ ((0xF6 : Byte) = 0 ∨ (0xF6 : Byte) = 0) :=
  ⟨reset_inv, ready_inv, waiting_inv, by decide, by decide⟩

/-- A zero divisor, a zero dividend and neither. -/
theorem witness_FdivAnswersTableQuotient : State.reset.Inv ∧ (0 : Byte) = 0 ∧ (7 : Byte) ≠ 0 ∧ (0xFF : Byte) ≠ 0 :=
  ⟨reset_inv, rfl, by decide, by decide⟩

theorem witness_FpowAnswersRepeatedProduct : State.reset.Inv ∧ readyState.Inv := ⟨reset_inv, ready_inv⟩

/-- Base and exponent 0, and the largest ones. -/
theorem witness_FpowCornerExponents : State.reset.Inv ∧ (0xFF : Byte) ≠ 0 ∧ (1 : Byte) ≠ 0 :=
  ⟨reset_inv, by decide, by decide⟩

theorem witness_TableMethodIsPolynomialProduct : State.reset.tbl.Inv ∧ printedTables.Inv ∧ (1 : Byte) ≠ 0 :=
  ⟨reset_inv.1, printed_inv, by decide⟩

theorem witness_FieldLawsOfTheUnit : State.reset.tbl.Inv ∧ printedTables.Inv ∧ (0xFF : Byte) ≠ 0 :=
  ⟨reset_inv.1, printed_inv, by decide⟩

/-- No entry listed, and every entry listed with LOG[0] among them. -/
theorem witness_BuildFillsTheTables : State.reset.tbl.wf ∧ printedTables.wf ∧
    ({ printedTables with log := (0, 0xEE) :: printedTables.log } : TableStore).wf :=
  ⟨reset_inv.1.1, printed_inv.1, printed_inv.1.1, cells_wf (i := 0) (bs := 0xEE :: Config.r83Log) (by decide +kernel)⟩

theorem witness_BuiltTablesArePowersAndLogarithms : printedTables.Built ∧ (254 : Nat) < 255 :=
  ⟨printed_inv.2 rfl, by decide⟩

theorem witness_LookupBuildsThenReads : State.reset.tbl.Inv ∧ printedTables.Inv ∧ (0xFF : Byte) ≠ 0 ∧ (254 : Nat) ≤ 254 :=
  ⟨reset_inv.1, printed_inv, by decide, by decide⟩

theorem witness_ReadyTablesNeverChange : readyState.tbl.ready = true ∧ readyState.resetAsserted = false ∧
    step readyState = .next readyState := ⟨rfl, rfl, rfl⟩

/-- From ready tables and from tables not built. -/
theorem witness_CommandsKeepTableEntries :
    exec (.mkpt 1 2) readyState = .next (readyState.answered printedTables [0x00, 1, 2]) ∧ readyState.tbl.ready = true ∧
      exec (.mkpt 1 2) State.reset = .next (State.reset.answered State.reset.tbl [0x00, 1, 2]) := ⟨rfl, rfl, rfl⟩

/-- Counts and lengths at 255. -/
theorem witness_DecodeOfEncode : (Instr.interp 0 (List.replicate 255 ⟨0, 0⟩)).wf = true ∧
    (Instr.recsh [⟨0xFF, List.replicate 255 7⟩, ⟨0, []⟩]).wf = true := by decide +kernel

theorem witness_EncodeOfDecode : decode [0x21, 0x01, 0x03, 0x00] = .ok (.recsh [⟨3, []⟩]) := by decide

/-- An empty frame, a reserved opcode next to a known one, and a known opcode with a wrong length. -/
theorem witness_RejectedFramesAreAnswered :
    (presenting readyState [] []).resetAsserted = false ∧ (presenting readyState [] []).executor = .idle ∧
    (presenting readyState [] []).commandIn = [] :: [] ∧
    (presenting readyState [0x32] []).commandIn = [0x32] :: [] ∧
    (0x32 : Byte) ∉ ([0x01, 0x02, 0x03, 0x04, 0x05, 0x10, 0x20, 0x21, 0x22, 0x30, 0x31] : List Byte) ∧
    (presenting readyState [0x31, 0xFF] []).commandIn = [0x31, 0xFF] :: [] ∧
    (0x31 : Byte) ∈ ([0x01, 0x02, 0x03, 0x04, 0x05, 0x10, 0x20, 0x21, 0x22, 0x30, 0x31] : List Byte) ∧
    formatLength [0x31, 0xFF] ≠ some 2 := ⟨rfl, rfl, rfl, rfl, by decide, rfl, by decide, by decide⟩

theorem witness_StepRunsTheDecodedCommand :
    (presenting readyState [0x31, 1, 2] []).resetAsserted = false ∧ (presenting readyState [0x31, 1, 2] []).executor = .idle ∧
    (presenting readyState [0x31, 1, 2] []).commandIn = [0x31, 1, 2] :: [] ∧ decode [0x31, 1, 2] = .ok (.mkpt 1 2) :=
  ⟨rfl, rfl, rfl, by decide⟩

/-- An idle unit with no frame, and one that waits. -/
theorem witness_StepWithoutAFrame : readyState.resetAsserted = false ∧ readyState.executor = .idle ∧
    readyState.commandIn = [] ∧ waitingState.resetAsserted = false ∧
    waitingState.executor = .busy (.split 2 2 [0x41, 0x42, 0x43]) [0x0A] := ⟨rfl, rfl, rfl, rfl, rfl⟩

/-- A step that answers, one that waits, and one with no frame. -/
theorem witness_OneResponsePerCommand :
    step (presenting readyState [0x31, 1, 2] []) = .next (readyState.answered printedTables [0x00, 1, 2]) ∧
    step drawingState = .next drawingState ∧ step readyState = .next readyState ∧
    readyState.resetAsserted = false := ⟨rfl, rfl, rfl, rfl⟩

/-- An OK response and an error. -/
theorem witness_ResponsesAreWellFormed : (presenting readyState [0x31, 1, 2] []).Inv ∧
    step (presenting readyState [0x31, 1, 2] []) = .next (readyState.answered printedTables [0x00, 1, 2]) ∧
    (readyState.answered printedTables [0x00, 1, 2]).responseOut =
      (presenting readyState [0x31, 1, 2] []).responseOut ++ [[0x00, 1, 2]] ∧
    (presenting readyState [] []).Inv ∧
    step (presenting readyState [] []) = .next (readyState.answered printedTables [0x81]) :=
  ⟨ready_inv, rfl, rfl, ready_inv, rfl⟩

/-- A command that is no SPLIT, and a SPLIT with K = 1 in IDLE. -/
theorem witness_CommandsLeaveThePortsAlone :
    exec (.mkpt 1 2) readyState = .next (readyState.answered printedTables [0x00, 1, 2]) ∧
    (∀ k n secret, Instr.mkpt 1 2 = .split k n secret → k = 1 ∧ readyState.executor = Executor.idle) ∧
    exec (.split 1 1 [0x7F]) readyState = .next (readyState.answered printedTables [0x00, 1, 0, 1, 0x7F]) ∧
    (∀ k n secret, Instr.split 1 1 [0x7F] = .split k n secret → k = 1 ∧ readyState.executor = .idle) := by
  refine ⟨rfl, ?_, rfl, ?_⟩
  · intro k n secret h
    cases h
  · intro k n secret h
    cases h
    exact ⟨rfl, rfl⟩

/-- An error that touches no table, and one after a lookup. -/
theorem witness_FailingCommandsChangeNothing :
    exec (.fdiv 5 0) State.reset = .next (State.reset.answered State.reset.tbl [0x07]) ∧
    ∃ t, exec (.interp 7 [⟨1, 0x10⟩, ⟨2, 0x20⟩, ⟨1, 0x30⟩]) readyState = .next t ∧
      t.responseOut = readyState.responseOut ++ [[0x07]] :=
  ⟨rfl, exists_next_of_responses (by decide +kernel)⟩

theorem witness_EveryFrameIsAnswered : (presenting readyState [0x05] (List.replicate 3825 0)).Inv ∧
    (presenting readyState [0x05] (List.replicate 3825 0)).resetAsserted = false ∧
    (presenting readyState [0x05] (List.replicate 3825 0)).executor = .idle ∧
    (presenting readyState [0x05] (List.replicate 3825 0)).commandIn = [0x05] :: [] ∧
    3825 ≤ (presenting readyState [0x05] (List.replicate 3825 0)).entropyIn.length :=
  ⟨ready_inv, rfl, rfl, rfl, Nat.le_of_eq (List.length_replicate).symm⟩

theorem witness_ResponseIndependentOfTablesAndHistory : waitingState.Inv ∧ State.reset.Inv ∧ State.reset.tbl.Inv ∧
    printedTables.Inv := ⟨waiting_inv, reset_inv, reset_inv.1, printed_inv⟩

theorem witness_DivisionByZeroExactlyOnEqualX : State.reset.Inv ∧ ¬ DistinctX [⟨4, 0x10⟩, ⟨4, 0x10⟩] ∧
    DistinctX [⟨1, 0x10⟩, ⟨2, 0x10⟩] := ⟨reset_inv, by unfold DistinctX; decide, by unfold DistinctX; decide⟩

/-- One point with y = 0, one with y ≠ 0, several. -/
theorem witness_InterpAnswersLagrangeSum : State.reset.Inv ∧ DistinctX [⟨9, 0⟩] ∧ DistinctX [⟨9, 0x77⟩] ∧
    DistinctX [⟨0, 0x11⟩, ⟨1, 0x22⟩, ⟨255, 0x53⟩] ∧ ([⟨9, 0⟩] : List Point) ≠ [] :=
  ⟨reset_inv, by unfold DistinctX; decide, by unfold DistinctX; decide, by unfold DistinctX; decide, by decide⟩

theorem witness_InterpAtASamplePoint : State.reset.Inv ∧ DistinctX [⟨1, 7⟩, ⟨255, 5⟩] ∧
    (⟨255, 5⟩ : Point) ∈ [(⟨1, 7⟩ : Point), ⟨255, 5⟩] := ⟨reset_inv, by unfold DistinctX; decide, by decide⟩

theorem witness_InterpIgnoresTheOrderOfPoints : State.reset.Inv ∧ DistinctX [⟨1, 7⟩, ⟨2, 5⟩] ∧
    [(⟨1, 7⟩ : Point), ⟨2, 5⟩].Perm [⟨2, 5⟩, ⟨1, 7⟩] := ⟨reset_inv, by unfold DistinctX; decide, List.Perm.swap _ _ _⟩

/-- Section 1.3 of the vectors: 5 + 3x + x² at 1, 2 and 3. -/
theorem witness_InterpReproducesThePolynomial : State.reset.Inv ∧
    ([⟨1, 7⟩, ⟨2, 7⟩, ⟨3, 5⟩] : List Point) ≠ [] ∧ DistinctX [⟨1, 7⟩, ⟨2, 7⟩, ⟨3, 5⟩] ∧
    ([5, 3, 1] : List Byte).length ≤ ([⟨1, 7⟩, ⟨2, 7⟩, ⟨3, 5⟩] : List Point).length ∧
    ∀ p ∈ ([⟨1, 7⟩, ⟨2, 7⟩, ⟨3, 5⟩] : List Point), p.y = polynomialAt [5, 3, 1] p.x :=
  ⟨reset_inv, by decide, by unfold DistinctX; decide, by decide, by decide⟩

/-- Each check at its boundary: L = 0; K = 0; N one below K; N = 17. -/
theorem witness_SplitChecksInOrder : ([] : List Byte) = [] ∧ ([0xAA] : List Byte) ≠ [] ∧ (0 : Byte) = 0 ∧
    (6 : Byte) ≠ 0 ∧ (5 : Byte).toNat < (6 : Byte).toNat ∧ (17 : Byte).toNat ≤ (17 : Byte).toNat ∧ 16 < (17 : Byte).toNat := by
  decide

theorem witness_SplitWithThresholdOne : State.reset.executor = .idle ∧ ([0x7F] : List Byte) ≠ [] ∧
    1 ≤ (1 : Byte).toNat ∧ (16 : Byte).toNat ≤ 16 := ⟨rfl, by decide, by decide, by decide⟩

/-- K = 1, K = N = 16, and a SPLIT in flight with just the bytes it lacks. -/
theorem witness_SplitAnswersTheShares : State.reset.Inv ∧ ([0x42] : List Byte) ≠ [] ∧ 1 ≤ (1 : Byte).toNat ∧
    (1 : Byte).toNat ≤ (16 : Byte).toNat ∧ (16 : Byte).toNat ≤ 16 ∧
    ((1 : Byte).toNat - 1) * ([0x42] : List Byte).length ≤ State.reset.available.length ∧
    ((16 : Byte).toNat - 1) * ([0x42] : List Byte).length ≤
      ({ readyState with entropyIn := List.replicate 15 0 } : State).available.length ∧
    ({ waitingState with entropyIn := [1, 2] } : State).Inv ∧
    ((2 : Byte).toNat - 1) * ([0x41, 0x42, 0x43] : List Byte).length ≤
      ({ waitingState with entropyIn := [1, 2] } : State).available.length :=
  ⟨reset_inv, by decide, by decide, by decide, by decide, by decide, by decide, waiting_inv, by decide⟩

theorem witness_SplitNeverDividesByZero :
    exec (.split 1 1 [0x7F]) readyState = .next (readyState.answered printedTables [0x00, 1, 0, 1, 0x7F]) :=
  rfl

/-- Fewer bytes than the first position needs, and one byte short in the last. -/
theorem witness_SplitWaitsForEntropy : State.reset.Inv ∧ ([0x41, 0x42, 0x43] : List Byte) ≠ [] ∧ 1 ≤ (2 : Byte).toNat ∧
    (2 : Byte).toNat ≤ (2 : Byte).toNat ∧ (2 : Byte).toNat ≤ 16 ∧
    State.reset.available.length < ((2 : Byte).toNat - 1) * ([0x41, 0x42, 0x43] : List Byte).length ∧
    ({ waitingState with entropyIn := [1] } : State).Inv ∧
    ({ waitingState with entropyIn := [1] } : State).available.length <
      ((2 : Byte).toNat - 1) * ([0x41, 0x42, 0x43] : List Byte).length :=
  ⟨reset_inv, by decide, by decide, by decide, by decide, by decide, waiting_inv, by decide⟩

/-- A SPLIT of two bytes with one of four bytes delivered. -/
theorem witness_WaitingSplitGoesOn : readyState.Inv ∧
    exec (.split 3 5 [0x53, 0xCA]) { readyState with entropyIn := [0x11] } =
      .next { readyState with executor := .busy (.split 3 5 [0x53, 0xCA]) [0x11] } ∧
    Executor.busy (.split 3 5 [0x53, 0xCA]) [0x11] ≠ .idle := ⟨ready_inv, rfl, by decide⟩

/-- An index of 16 in the last share; indices up to 15 and lengths that differ. -/
theorem witness_RecshChecksInOrder :
    (∃ sh ∈ (⟨1, [0xAA]⟩ : Share) :: [⟨16, [0xCC, 0xDD]⟩], 15 < sh.index.toNat) ∧
    (∀ sh ∈ (⟨15, [0xAA]⟩ : Share) :: [⟨0, []⟩], sh.index.toNat ≤ 15) ∧
    ∃ sh ∈ [(⟨0, []⟩ : Share)], sh.value.length ≠ (⟨15, [0xAA]⟩ : Share).value.length := by decide

/-- Different indices; equal indices with empty values; one share of zeros. -/
theorem witness_RecshAnswersLagrangeValues : State.reset.Inv ∧ ([⟨1, [0xB9]⟩, ⟨15, [0x6F]⟩] : List Share) ≠ [] ∧
    (∀ sh ∈ ([⟨1, [0xB9]⟩, ⟨15, [0x6F]⟩] : List Share), sh.index.toNat ≤ 15 ∧ sh.value.length = 1) ∧
    (([⟨1, [0xB9]⟩, ⟨15, [0x6F]⟩] : List Share).map Share.index).Nodup ∧
    (∀ sh ∈ ([⟨3, []⟩, ⟨3, []⟩] : List Share), sh.index.toNat ≤ 15 ∧ sh.value.length = 0) ∧
    (∀ sh ∈ ([⟨3, [0, 0]⟩] : List Share), ∀ b ∈ sh.value, b = 0) :=
  ⟨reset_inv, by decide, by decide, by decide, by decide, by decide⟩

theorem witness_RecshRejectsEqualIndices : State.reset.Inv ∧
    (∀ sh ∈ ([⟨3, [0xAA]⟩, ⟨3, [0xAA]⟩] : List Share), sh.index.toNat ≤ 15 ∧ sh.value.length = 1) ∧ (1 : Nat) ≠ 0 ∧
    ¬ (([⟨3, [0xAA]⟩, ⟨3, [0xAA]⟩] : List Share).map Share.index).Nodup := ⟨reset_inv, by decide, by decide, by decide⟩

theorem witness_RecptAnswersLagrangeSum : State.reset.Inv ∧ ([⟨255, 0x10⟩, ⟨2, 0x20⟩] : List Point) ≠ [] ∧
    DistinctX [⟨255, 0x10⟩, ⟨2, 0x20⟩] ∧ DistinctX [⟨9, 0⟩] :=
  ⟨reset_inv, by decide, by unfold DistinctX; decide, by unfold DistinctX; decide⟩

theorem witness_RecshLanesAreIndependent : printedTables.Inv ∧
    recoverShares printedTables [⟨1, [0xB9, 0x01]⟩, ⟨2, [0x6F, 0x02]⟩] =
      recoverShares printedTables [⟨1, [0xB9, 0x01]⟩, ⟨2, [0x6F, 0x02]⟩] ∧
    (match recoverShares printedTables [⟨1, [0xB9, 0x01]⟩, ⟨2, [0x6F, 0x02]⟩],
        recoverShares printedTables [⟨1, [0xB9]⟩, ⟨2, [0x6F]⟩] with
      | .ok out _, .ok out' _ => decide (0 < out.length ∧ 0 < out'.length)
      | _, _ => false) = true ∧
    (([⟨1, [0xB9, 0x01]⟩, ⟨2, [0x6F, 0x02]⟩] : List Share).map fun sh : Share => (sh.index, sh.value[0]?)) =
      (([⟨1, [0xB9]⟩, ⟨2, [0x6F]⟩] : List Share).map fun sh : Share => (sh.index, sh.value[0]?)) := by
  refine ⟨printed_inv, rfl, by decide +kernel, by decide⟩

/-- A one-byte secret with K = N = 1, and the longest with K = N = 16 and just the bytes it draws. -/
theorem witness_SplitThenRecoverReturnsTheSecret : State.reset.Inv ∧ waitingState.Inv ∧ ([0x42] : List Byte) ≠ [] ∧
    ([0x42] : List Byte).length ≤ 255 ∧ 1 ≤ (1 : Byte).toNat ∧ (1 : Byte).toNat ≤ (16 : Byte).toNat ∧
    (16 : Byte).toNat ≤ 16 ∧ ((1 : Byte).toNat - 1) * ([0x42] : List Byte).length ≤ State.reset.available.length ∧
    (List.replicate 255 (0 : Byte)).length ≤ 255 ∧
    ((16 : Byte).toNat - 1) * (List.replicate 255 (0 : Byte)).length ≤
      ({ State.reset with entropyIn := List.replicate 3825 0 } : State).available.length :=
  ⟨reset_inv, waiting_inv, by decide, by decide, by decide, by decide, by decide, by decide,
    Nat.le_of_eq List.length_replicate, by decide +kernel⟩

theorem witness_ResetAbandonsTheCommand : ({ waitingState with resetAsserted := true } : State).resetAsserted = true := rfl

/-- A step that waits and one that answers, both from states that meet the invariant. -/
theorem witness_StepKeepsTheInvariant : drawingState.Inv ∧ step drawingState = .next drawingState ∧
    (presenting readyState [0x31, 1, 2] []).Inv ∧
    step (presenting readyState [0x31, 1, 2] []) = .next (readyState.answered printedTables [0x00, 1, 2]) :=
  ⟨drawing_inv, rfl, ready_inv, rfl⟩

theorem witness_StepNeverStops : State.reset.Inv ∧ readyState.Inv ∧ waitingState.Inv := ⟨reset_inv, ready_inv, waiting_inv⟩

end Sys2Proof.Machine.Tests
end

/-! PROOFS. The printed tables as powers and logarithms of the generator, the built tables, and the statements about them and
about the state right after reset (O12, O50, O52). -/

namespace Sys2Proof.Machine

/-! ### The printed tables are the powers of the generator and their logarithms (R14, R16, R83)

The printed lists are evaluated here and nowhere else: EXP obeys the generator's recurrence, and EXP and LOG invert each
other. -/

theorem r83Exp_tail : Config.r83Exp.tail = (Config.r83Exp.take 255).map fun v => clmulMod v Config.gen := by
  decide +kernel

theorem zero_notMem_r83Exp : 0 ∉ Config.r83Exp := by decide +kernel

theorem r83Exp_map_logEntry : (Config.r83Exp.take 255).map logEntry = List.range 255 := by decide +kernel

theorem order_notMem_r83Log : 255#8 ∉ Config.r83Log := by decide +kernel

theorem r83Log_map_expEntry :
    (Config.r83Log.map fun v => expEntry v.toNat) = (List.range 255).map fun i => BitVec.ofNat 8 (i + 1) := by
  decide +kernel

theorem r83Exp_getElem? {i : Nat} (hi : i < 256) : Config.r83Exp[i]? = some (expEntry i) := by
  have hlen := r83Exp_length
  rw [expEntry, List.getD_eq_getElem?_getD, List.getElem?_eq_getElem (by omega), Option.getD_some]

theorem r83Log_getElem? (a : Byte) : Config.r83Log[a.toNat - 1]? = some (BitVec.ofNat 8 (logEntry a)) := by
  have hlen := r83Log_length
  have hlt := a.isLt
  rw [logEntry, List.getD_eq_getElem?_getD, List.getElem?_eq_getElem (by omega), Option.getD_some, BitVec.ofNat_toNat,
    BitVec.setWidth_eq]

theorem toNat_pos_of_ne_zero {a : Byte} (ha : a ≠ 0) : 0 < a.toNat :=
  Nat.pos_of_ne_zero fun h => ha (BitVec.eq_of_toNat_eq h)

theorem expEntry_ne_zero {i : Nat} (hi : i < 256) : expEntry i ≠ 0 := fun h =>
  zero_notMem_r83Exp (h ▸ List.mem_of_getElem? (r83Exp_getElem? hi))

theorem logEntry_lt_order (a : Byte) : logEntry a < 255 := by
  have hne : logEntry a ≠ 255 := fun h => order_notMem_r83Log (by simpa [h] using List.mem_of_getElem? (r83Log_getElem? a))
  have := logEntry_lt a
  omega

theorem logEntry_expEntry {i : Nat} (hi : i < 255) : logEntry (expEntry i) = i := by
  have h := congrArg (·[i]?) r83Exp_map_logEntry
  simpa [List.getElem?_take_of_lt hi, r83Exp_getElem? (Nat.lt_succ_of_lt hi), List.getElem?_range hi] using h

theorem expEntry_logEntry {a : Byte} (ha : a ≠ 0) : expEntry (logEntry a) = a := by
  have hpos := toNat_pos_of_ne_zero ha
  have hlt : a.toNat - 1 < 255 := by have := a.isLt; omega
  have h := congrArg (·[a.toNat - 1]?) r83Log_map_expEntry
  simpa [r83Log_getElem? a, List.getElem?_range hlt, Nat.sub_add_cancel hpos, Nat.mod_eq_of_lt (logEntry_lt a)] using h

/-- EXP is the list of the generator's powers, the wrap entry 255 included (R14). -/
theorem expEntry_eq_fieldPower {i : Nat} (hi : i < 256) : expEntry i = fieldPower Config.gen i := by
  induction i with
  | zero => rfl
  | succ i ih =>
    have h := congrArg (·[i]?) r83Exp_tail
    simp only [List.getElem?_tail, List.getElem?_map, List.getElem?_take_of_lt (Nat.lt_of_succ_lt_succ hi),
      r83Exp_getElem? hi, r83Exp_getElem? (Nat.lt_of_succ_lt hi), Option.map_some, Option.some.injEq] at h
    rw [h, ih (Nat.lt_of_succ_lt hi)]
    rfl

theorem fieldPower_gen_injective {i j : Nat} (hi : i < 255) (hj : j < 255)
    (h : fieldPower Config.gen i = fieldPower Config.gen j) : i = j := by
  rw [← expEntry_eq_fieldPower (Nat.lt_succ_of_lt hi), ← expEntry_eq_fieldPower (Nat.lt_succ_of_lt hj)] at h
  rw [← logEntry_expEntry hi, h, logEntry_expEntry hj]

/-! ### Built tables (R82, R83) -/

/-- EXP holds the first `n` powers of the generator and LOG their logarithms: the invariant of the build's loop, true after
its first `n` rounds. -/
def TableStore.PowersBelow (n : Nat) (t : TableStore) : Prop :=
  ∀ j < n, t.exp.read j = some (fieldPower Config.gen j) ∧
    t.log.read (fieldPower Config.gen j).toNat = some (BitVec.ofNat 8 j)

/-- One round of the build. Its write to LOG undoes no earlier one, for the powers are pairwise different. -/
theorem TableStore.PowersBelow.round {i : Nat} {t : TableStore} (h : t.PowersBelow i) (hi : i < 255) :
    TableStore.PowersBelow (i + 1) { t with
      exp := t.exp.write i (fieldPower Config.gen i)
      log := t.log.write (fieldPower Config.gen i).toNat (BitVec.ofNat 8 i) } := by
  intro j hj
  by_cases hji : j = i
  · subst hji
    exact ⟨Memory.read_write_same _ _ _, Memory.read_write_same _ _ _⟩
  · obtain ⟨hexp, hlog⟩ := h j (by omega)
    have hne : (fieldPower Config.gen j).toNat ≠ (fieldPower Config.gen i).toNat := fun e =>
      hji (fieldPower_gen_injective (by omega) hi (BitVec.eq_of_toNat_eq e))
    exact ⟨(Memory.read_write_of_ne _ _ hji).trans hexp, (Memory.read_write_of_ne _ _ hne).trans hlog⟩

theorem buildLoop_powersBelow {n i : Nat} {t : TableStore} (h : t.PowersBelow i) (hn : i + n ≤ 255) :
    (buildLoop n i (fieldPower Config.gen i) t).PowersBelow (i + n) := by
  induction n generalizing i t with
  | zero => exact h
  | succ n ih =>
    rw [show i + (n + 1) = i + 1 + n by omega]
    exact ih (h.round (by omega)) (by omega)

/-- The contents R83 prints are the powers, the wrap entry and the logarithms. -/
theorem TableStore.built_iff {t : TableStore} : t.Built ↔ t.PowersBelow 255 ∧ t.exp.read 255 = some 1 := by
  constructor
  · intro h
    refine ⟨fun i hi => ?_, h.1 255 (by decide)⟩
    have hexp := h.1 i (Nat.lt_succ_of_lt hi)
    have hne := expEntry_ne_zero (Nat.lt_succ_of_lt hi)
    have hpos := toNat_pos_of_ne_zero hne
    have hlog := h.2 ((expEntry i).toNat - 1) (by have := (expEntry i).isLt; simp only [Config.order]; omega)
    rw [Nat.sub_add_cancel hpos, r83Log_getElem? _, logEntry_expEntry hi] at hlog
    rw [r83Exp_getElem? (Nat.lt_succ_of_lt hi)] at hexp
    rw [← expEntry_eq_fieldPower (Nat.lt_succ_of_lt hi)]
    exact ⟨hexp, hlog⟩
  · rintro ⟨hpow, hwrap⟩
    refine ⟨fun i hi => ?_, fun i hi => ?_⟩
    · by_cases h255 : i = 255
      · subst h255; exact hwrap
      · have hi' : i < 255 := by simp only [Config.tblSize] at hi; omega
        rw [(hpow i hi').1, r83Exp_getElem? hi, expEntry_eq_fieldPower hi]
    · obtain ⟨a, ha⟩ : ∃ a : Byte, a.toNat = i + 1 :=
        ⟨BitVec.ofNat 8 (i + 1), Nat.mod_eq_of_lt (Nat.succ_lt_succ hi)⟩
      have hne : a ≠ 0 := fun h => by rw [h] at ha; cases ha
      have hlt := logEntry_lt_order a
      have hlog := (hpow _ hlt).2
      rw [← expEntry_eq_fieldPower (Nat.lt_succ_of_lt hlt), expEntry_logEntry hne, ← r83Log_getElem?, ha] at hlog
      exact hlog

theorem copyExpWrap_built {t : TableStore} (h : t.PowersBelow 255) : (copyExpWrap t).Built := by
  have hexp := copyExpWrap_read_exp (h 0 (by decide)).1
  refine TableStore.built_iff.2 ⟨fun j hj => ?_, (hexp 255).trans (if_pos rfl)⟩
  rw [hexp, if_neg (Nat.ne_of_lt hj), copyExpWrap_log]
  exact h j hj

theorem TableStore.Built.setReady {t : TableStore} (h : t.Built) : t.setReady.Built := h

/-- The build leaves the contents of R83, whatever the tables held. -/
theorem buildTables_built (t : TableStore) : (buildTables t).Built := by
  have hstart : t.PowersBelow 0 := fun j hj => (Nat.not_lt_zero j hj).elim
  have hloop := buildLoop_powersBelow (n := Config.order) hstart (Nat.le_refl 255)
  exact (copyExpWrap_built hloop).setReady

theorem ensureTables_built {t : TableStore} (h : t.Inv) : (ensureTables t).Built := by
  rcases ensureTables_cases t with ⟨hr, e⟩ | ⟨_, e⟩ <;> rw [e]
  · exact h.2 hr
  · exact buildTables_built t

theorem ensureTables_inv {t : TableStore} (h : t.Inv) : (ensureTables t).Inv :=
  ⟨ensureTables_wf h.1, fun _ => ensureTables_built h⟩

theorem Reach.inv {t u : TableStore} (h : Reach t u) (ht : t.Inv) : u.Inv := by
  rcases h with rfl | rfl
  · exact ht
  · exact ensureTables_inv ht

theorem Reach.ready {t u : TableStore} (h : Reach t u) (hr : t.ready = true) : u.ready = true := by
  rw [h.eq_of_ready hr, hr]

/-- Tables in reach that are built are the ensured ones. -/
theorem Reach.eq_ensureTables {t u : TableStore} (h : Reach t u) (hr : u.ready = true) : u = ensureTables t := by
  rw [← h.ensureTables_eq, ensureTables_of_ready hr]

theorem reset_tbl_inv : State.reset.tbl.Inv := by
  have hempty : Memory.wf [] := ⟨List.Pairwise.nil, fun _ h => (List.not_mem_nil h).elim⟩
  exact ⟨⟨hempty, hempty⟩, fun h => Bool.noConfusion h⟩

/-- Settles O12: built tables are the powers, the wrap entry and the logarithms. -/
theorem builtTablesArePowersAndLogarithms : Obligations.BuiltTablesArePowersAndLogarithms := by
  intro t ht
  obtain ⟨hpow, hwrap⟩ := TableStore.built_iff.1 ht
  exact ⟨fun i hi => (hpow i hi).1, hwrap, fun i hi => (hpow i hi).2⟩

/-- Settles O50: the fields of the reset state. -/
theorem resetLeaves : Obligations.ResetLeaves := ⟨rfl, rfl, rfl, rfl, rfl, rfl, rfl, rfl⟩

/-- Settles O52: tables that are not built meet the table invariant in canonical form alone, and nothing is in flight. -/
theorem resetMeetsTheInvariant : Obligations.ResetMeetsTheInvariant := ⟨reset_tbl_inv, trivial⟩

end Sys2Proof.Machine

/-! PROOFS. The lanes of a split: how many bytes they take, that they raise no error, and the tables they leave. -/

namespace Sys2Proof.Machine

/-! ### The lanes of a split, position by position (R121) -/

/-- The column of a position laid in front of the lanes of the positions after it. -/
def Lanes.cons (column : List Byte) : Lanes → Lanes
  | .done values rest => .done (List.zipWith List.cons column values) rest
  | .starved => .starved

/-- With too few bytes for the position's draws the lanes starve there. -/
theorem splitLanes_cons_of_lt {k : Nat} {avail : List Byte} (h : avail.length < k - 1) (n : Nat) (b : Byte)
    (secret : List Byte) (t : TableStore) : splitLanes k n (b :: secret) avail t = .ok .starved t := by
  simp [splitLanes, drawMany_eq, Nat.not_le.2 h]

/-- With enough, the position's column is made and the other positions go on with the bytes left. -/
theorem splitLanes_cons_of_le {k : Nat} {avail : List Byte} (h : k - 1 ≤ avail.length) (n : Nat) (b : Byte)
    (secret : List Byte) (t : TableStore) : splitLanes k n (b :: secret) avail t =
      (splitColumn k n (avail.take (k - 1)) b t).bind fun column u =>
        (splitLanes k n secret (avail.drop (k - 1)) u).bind fun lanes w => .ok (lanes.cons column) w := by
  simp only [splitLanes, drawMany_eq, if_pos h]
  congr; funext column u; congr; funext lanes w
  cases lanes <;> rfl

/-- What lanes that raise nothing come to: starved where the bytes do not suffice, and else done with the bytes left. -/
theorem splitLanes_eq_ok {k n : Nat} {secret avail : List Byte} {t u : TableStore} {lanes : Lanes}
    (h : splitLanes k n secret avail t = .ok lanes u) :
    (lanes = .starved ∧ avail.length < (k - 1) * secret.length) ∨
      ((k - 1) * secret.length ≤ avail.length ∧
        ∃ values, lanes = .done values (avail.drop ((k - 1) * secret.length))) := by
  induction secret generalizing avail t u lanes with
  | nil => cases h; exact .inr ⟨Nat.zero_le _, _, rfl⟩
  | cons b secret ih =>
    rw [List.length_cons, Nat.mul_succ]
    rcases Nat.lt_or_ge avail.length (k - 1) with hk | hk
    · rw [splitLanes_cons_of_lt hk] at h
      cases h
      exact .inl ⟨rfl, by omega⟩
    · rw [splitLanes_cons_of_le hk] at h
      obtain ⟨column, v, -, h⟩ := Res.bind_eq_ok h
      obtain ⟨lanes, w, hl, h⟩ := Res.bind_eq_ok h
      cases h
      rcases ih hl with ⟨rfl, hlt⟩ | ⟨hle, values, rfl⟩ <;> rw [List.length_drop] at *
      · exact .inl ⟨rfl, by omega⟩
      · exact .inr ⟨by omega, _, by rw [Lanes.cons, List.drop_drop, Nat.add_comm]⟩

/-- A SPLIT that raises nothing has passed its checks, and its work is the lanes. -/
theorem split_eq_ok {t u : TableStore} {k n : Nat} {secret avail : List Byte} {lanes : Lanes}
    (h : split t k n secret avail = .ok lanes u) :
    secret ≠ [] ∧ k ≠ 0 ∧ k ≤ n ∧ n ≤ Config.nMax ∧ splitLanes k n secret avail t = .ok lanes u := by
  unfold split at h
  split at h
  · cases h
  · next hs =>
    split at h
    · cases h
    · next hk =>
      split at h
      · cases h
      · next hkn =>
        split at h
        · cases h
        · next hn => exact ⟨hs, hk, Nat.not_lt.1 hkn, Nat.not_lt.1 hn, h⟩

/-- A SPLIT starves only past its checks, with threshold 2 or more, and short of bytes. -/
theorem split_eq_starved {t u : TableStore} {k n : Nat} {secret avail : List Byte}
    (h : split t k n secret avail = .ok .starved u) :
    secret ≠ [] ∧ 2 ≤ k ∧ k ≤ n ∧ n ≤ Config.nMax ∧ avail.length < (k - 1) * secret.length ∧
      splitLanes k n secret avail t = .ok .starved u := by
  obtain ⟨hs, hk, hkn, hn, hl⟩ := split_eq_ok h
  rcases splitLanes_eq_ok hl with ⟨-, hlt⟩ | ⟨-, values, hv⟩
  · have hk1 : k ≠ 1 := fun e => by simp [e] at hlt
    exact ⟨hs, by omega, hkn, hn, hlt, hl⟩
  · cases hv

/-! ### Where no two points have the same x, interpolation raises no error (R113, R122 (c)) -/

theorem feSub_ne_zero {a b : Byte} (h : a ≠ b) : feSub a b ≠ 0 := fun e => h (BitVec.xor_eq_zero_iff.1 e)

theorem feDiv_within_of_ne_zero (t : TableStore) (a : Byte) {b : Byte} (hb : b ≠ 0) (K : ErrorKind → Prop) :
    (feDiv t a b).Within t K := by
  rw [feDiv, if_neg hb]
  split
  · exact Reach.refl t
  · exact (lookupLog_within t a K).bind fun _ u => (lookupLog_within u b K).bind fun _ w => lookupExp_within w _ K

theorem basisLoop_within_of_ne (x : Byte) {i : Nat} {xi : Byte} {j : Nat} {ps : List Point} (basis : Byte)
    (t : TableStore) (K : ErrorKind → Prop) (h : ∀ m p, ps[m]? = some p → j + m ≠ i → xi ≠ p.x) :
    (basisLoop x i xi j ps basis t).Within t K := by
  induction ps generalizing j basis t with
  | nil => exact Reach.refl t
  | cons p ps ih =>
    have htail : ∀ m q, ps[m]? = some q → j + 1 + m ≠ i → xi ≠ q.x := fun m q hq hm =>
      h (m + 1) q hq (by omega)
    unfold basisLoop
    split
    · exact ih _ _ htail
    · next hj =>
      have hne : feSub xi p.x ≠ 0 := feSub_ne_zero (h 0 p rfl hj)
      exact (feDiv_within_of_ne_zero t _ hne K).bind fun q u =>
        (feMul_within u basis q K).bind fun v w => ih v w htail

/-- Different positions of points with different x hold different x. -/
theorem DistinctX.ne {points : List Point} (h : DistinctX points) {i j : Nat} {p q : Point} (hp : points[i]? = some p)
    (hq : points[j]? = some q) (hij : j ≠ i) : p.x ≠ q.x := fun e => by
  have hx : (points.map Point.x)[i]? = (points.map Point.x)[j]? := by simp [hp, hq, e]
  have hi : i < (points.map Point.x).length := by
    rw [List.length_map]; exact (List.getElem?_eq_some_iff.1 hp).1
  exact hij ((List.getElem?_inj hi h).1 hx).symm

theorem sumLoop_within_of_distinct (x : Byte) {points : List Point} (hd : DistinctX points) {i : Nat} {ps : List Point}
    (sum : Byte) (t : TableStore) (K : ErrorKind → Prop) (h : ∀ m, ps[m]? = points[i + m]?) :
    (sumLoop x points i ps sum t).Within t K := by
  induction ps generalizing i sum t with
  | nil => exact Reach.refl t
  | cons p ps ih =>
    have hp : points[i]? = some p := (h 0).symm
    have htail : ∀ m, ps[m]? = points[i + 1 + m]? := fun m => by
      rw [show i + 1 + m = i + (m + 1) by omega, ← h (m + 1), List.getElem?_cons_succ]
    refine (basisLoop_within_of_ne x 1 t K fun m q hq hm => ?_).bind fun v u =>
      (feMul_within u v p.y K).bind fun w z => ih _ z htail
    rw [Nat.zero_add] at hm
    exact hd.ne hp hq hm

theorem interpolate_within_of_distinct (t : TableStore) (x : Byte) {points : List Point} (hne : points ≠ [])
    (hd : DistinctX points) (K : ErrorKind → Prop) : (interpolate t x points).Within t K := by
  rw [interpolate, if_neg hne]
  exact sumLoop_within_of_distinct x hd 0 t K fun m => by rw [Nat.zero_add]

theorem interpolateEach_within_of_distinct {points : List Point} (hne : points ≠ []) (hd : DistinctX points)
    (xs : List Byte) (t : TableStore) (K : ErrorKind → Prop) : (interpolateEach points xs t).Within t K := by
  induction xs generalizing t with
  | nil => exact Reach.refl t
  | cons x xs ih =>
    exact (interpolate_within_of_distinct t x hne hd K).bind fun y u => (ih u).bind fun ys w => Reach.refl w

theorem drawnPoints_map_x (i : Nat) (drawn : List Byte) :
    (drawnPoints i drawn).map Point.x = (List.range' i drawn.length).map (BitVec.ofNat 8) := by
  induction drawn generalizing i with
  | nil => rfl
  | cons r drawn ih => simp [drawnPoints, List.range'_succ, ih]

/-- The points of a byte position have different x: the drawn bytes' indices are below 255, the secret's x (R121). -/
theorem splitPoints_distinct {drawn : List Byte} (h : drawn.length ≤ 255) (b : Byte) :
    DistinctX (splitPoints drawn b) := by
  have hx : ∀ i ∈ List.range' 0 drawn.length, (BitVec.ofNat 8 i).toNat = i := fun i hi => by
    have := (List.mem_range'_1.1 hi).2
    rw [BitVec.toNat_ofNat]
    omega
  simp only [DistinctX, splitPoints, List.map_append, drawnPoints_map_x, List.map_cons, List.map_nil]
  refine List.nodup_append.2 ⟨(List.nodup_map_iff_inj_on (List.nodup_range' _)).2 fun i hi j hj e => ?_,
    List.nodup_singleton _, fun v hv w hw e => ?_⟩
  · rw [← hx i hi, e, hx j hj]
  · obtain ⟨i, hi, rfl⟩ := List.mem_map.1 hv
    have hi255 : i = 255 := by rw [← hx i hi, e, List.mem_singleton.1 hw]; rfl
    have := (List.mem_range'_1.1 hi).2
    omega

theorem splitPoints_ne_nil (drawn : List Byte) (b : Byte) : splitPoints drawn b ≠ [] := by simp [splitPoints]

theorem splitColumn_within_of_le (k n : Nat) {drawn : List Byte} (h : drawn.length ≤ 255) (b : Byte) (t : TableStore)
    (K : ErrorKind → Prop) : (splitColumn k n drawn b t).Within t K := by
  unfold splitColumn
  split
  · exact Reach.refl t
  · exact (interpolateEach_within_of_distinct (splitPoints_ne_nil _ _) (splitPoints_distinct h b) _ t K).bind
      fun ys u => Reach.refl u

/-- The lanes of a split raise no error (R122 (c)). -/
theorem splitLanes_within_of_le {k : Nat} (hk : k ≤ 256) (n : Nat) (secret avail : List Byte) (t : TableStore)
    (K : ErrorKind → Prop) : (splitLanes k n secret avail t).Within t K := by
  induction secret generalizing avail t with
  | nil => exact Reach.refl t
  | cons b secret ih =>
    rcases Nat.lt_or_ge avail.length (k - 1) with hlt | hle
    · rw [splitLanes_cons_of_lt hlt]; exact Reach.refl t
    · have hdrawn : (avail.take (k - 1)).length ≤ 255 := by rw [List.length_take]; omega
      rw [splitLanes_cons_of_le hle]
      exact (splitColumn_within_of_le k n hdrawn b t K).bind fun column u => (ih _ u).bind fun lanes w => Reach.refl w

/-! ### Two points with different x need a lookup (R111, R84) -/

theorem Res.Within.reach_of_ok {α : Type} {t u : TableStore} {K : ErrorKind → Prop} {r : Res α} {v : α}
    (hw : r.Within t K) (h : r = .ok v u) : Reach t u := by
  subst h; exact hw

theorem feDiv_ready {t u : TableStore} {a b v : Byte} (ha : a ≠ 0) (h : feDiv t a b = .ok v u) : u.ready = true := by
  simp only [feDiv, if_neg ha] at h
  split at h
  · cases h
  · obtain ⟨i, w, -, h⟩ := Res.bind_eq_ok h
    obtain ⟨j, z, -, h⟩ := Res.bind_eq_ok h
    rw [(lookupExp_eq_ok.1 h).2.2, ensureTables_ready]

/-- A factor that is not 0 has the inner loop divide through the tables. -/
theorem basisLoop_ready {x : Byte} {i : Nat} {xi : Byte} {j : Nat} {ps : List Point} {basis v : Byte} {t u : TableStore}
    {m : Nat} {p : Point} (hp : ps[m]? = some p) (hm : j + m ≠ i) (hx : x ≠ p.x)
    (h : basisLoop x i xi j ps basis t = .ok v u) : u.ready = true := by
  induction ps generalizing j basis t m with
  | nil => cases hp
  | cons q ps ih =>
    unfold basisLoop at h
    cases m with
    | zero =>
      cases hp
      rw [if_neg (by omega)] at h
      obtain ⟨c, w, hdiv, h⟩ := Res.bind_eq_ok h
      obtain ⟨d, z, hmul, h⟩ := Res.bind_eq_ok h
      have hw := feDiv_ready (feSub_ne_zero hx) hdiv
      have hz := ((feMul_within w basis c NoKind).reach_of_ok hmul).ready hw
      exact ((basisLoop_within x i xi (j + 1) ps d z).reach_of_ok h).ready hz
    | succ m =>
      have hm' : j + 1 + m ≠ i := by omega
      split at h
      · exact ih hp hm' h
      · obtain ⟨c, w, -, h⟩ := Res.bind_eq_ok h
        obtain ⟨d, z, -, h⟩ := Res.bind_eq_ok h
        exact ih hp hm' h

/-- The target differs from one of the two x, and that point gives the other's basis product a factor that is not 0. -/
theorem interpolate_ready {t u : TableStore} {x v : Byte} {p q : Point} {rest : List Point} (hpq : p.x ≠ q.x)
    (h : interpolate t x (p :: q :: rest) = .ok v u) : u.ready = true := by
  rw [interpolate, if_neg (List.cons_ne_nil _ _)] at h
  obtain ⟨b0, t1, hbasis0, h⟩ := Res.bind_eq_ok h
  obtain ⟨m0, t2, hmul0, h⟩ := Res.bind_eq_ok h
  obtain ⟨b1, t3, hbasis1, h⟩ := Res.bind_eq_ok h
  obtain ⟨m1, t4, hmul1, h⟩ := Res.bind_eq_ok h
  have h3 : t3.ready = true := by
    by_cases hx : x = q.x
    · exact basisLoop_ready (m := 0) rfl (by decide) (fun e => hpq (e.symm.trans hx)) hbasis1
    · have h1 := basisLoop_ready (m := 1) rfl (by decide) hx hbasis0
      have h2 := ((feMul_within _ _ _ NoKind).reach_of_ok hmul0).ready h1
      exact ((basisLoop_within _ _ _ _ _ _ _).reach_of_ok hbasis1).ready h2
  have h4 := ((feMul_within _ _ _ NoKind).reach_of_ok hmul1).ready h3
  exact ((sumLoop_within _ _ _ _ _ _).reach_of_ok h).ready h4

/-- A position of a split with threshold 2 or more interpolates at least one share, from at least two points. -/
theorem splitColumn_ready {k n : Nat} {drawn : List Byte} {b : Byte} {t u : TableStore} {column : List Byte}
    (hk : 2 ≤ k) (hkn : k ≤ n) (hpos : 0 < drawn.length) (hlen : drawn.length ≤ 255)
    (h : splitColumn k n drawn b t = .ok column u) : u.ready = true := by
  rw [splitColumn, if_neg (by omega)] at h
  obtain ⟨ys, w, heach, h⟩ := Res.bind_eq_ok h
  cases h
  obtain ⟨targets, htargets⟩ : ∃ targets, splitTargets k n = BitVec.ofNat 8 (k - 1) :: targets := by
    rw [splitTargets, show n - (k - 1) = n - k + 1 by omega, List.range'_succ]
    exact ⟨_, rfl⟩
  obtain ⟨p, q, rest, hpoints⟩ : ∃ p q rest, splitPoints drawn b = p :: q :: rest := by
    match drawn, hpos with
    | [r], _ => exact ⟨_, _, _, rfl⟩
    | r :: r' :: rs, _ => exact ⟨_, _, _, rfl⟩
  have hpq : p.x ≠ q.x :=
    (splitPoints_distinct hlen b).ne (i := 0) (j := 1) (by rw [hpoints]; rfl) (by rw [hpoints]; rfl) (by decide)
  rw [htargets, hpoints] at heach
  obtain ⟨y, z, hy, heach⟩ := Res.bind_eq_ok heach
  obtain ⟨ys', z', hys, heach⟩ := Res.bind_eq_ok heach
  cases heach
  exact ((interpolateEach_within _ _ _).reach_of_ok hys).ready (interpolate_ready hpq hy)

/-- The tables after the lanes of a split with threshold 2 or more: ensured as soon as the first position is complete. -/
theorem splitLanes_tables {k n : Nat} {secret avail : List Byte} {t u : TableStore} {lanes : Lanes} (hk : 2 ≤ k)
    (hkn : k ≤ n) (hk' : k ≤ 256) (hs : secret ≠ []) (h : splitLanes k n secret avail t = .ok lanes u) :
    u = if avail.length < k - 1 then t else ensureTables t := by
  obtain ⟨b, secret, rfl⟩ := List.exists_cons_of_ne_nil hs
  split
  · next hlt =>
    rw [splitLanes_cons_of_lt hlt] at h
    cases h
    rfl
  · next hge =>
    have hdrawn : (avail.take (k - 1)).length = k - 1 := by rw [List.length_take]; omega
    rw [splitLanes_cons_of_le (Nat.not_lt.1 hge)] at h
    obtain ⟨column, w, hcolumn, h⟩ := Res.bind_eq_ok h
    obtain ⟨lanes', z, hrest, h⟩ := Res.bind_eq_ok h
    cases h
    have hw := splitColumn_ready hk hkn (by omega) (by omega) hcolumn
    have hwu := (splitLanes_within k n secret _ w).reach_of_ok hrest
    exact (((splitColumn_within k n _ b t).reach_of_ok hcolumn).trans hwu).eq_ensureTables (hwu.ready hw)

end Sys2Proof.Machine

/-! PROOFS. Two runs over different table stores and histories, one step by what it finds, and that no response depends on
either (O28). -/

namespace Sys2Proof.Machine

/-! ### One piece of work over two table stores (R22)

Where both stores meet the invariant, a lookup gives what R83 prints in either, so the work ends with one value or one error
kind, and in stores that again meet the invariant. -/

/-- Two runs of a piece of work end alike: one value or one error kind, the stores after them meeting the invariant. -/
inductive Res.Agree {α : Type} : Res α → Res α → Prop where
  /-- Both end in the value. -/
  | ok (v : α) {t u : TableStore} (ht : t.Inv) (hu : u.Inv) : Agree (.ok v t) (.ok v u)
  /-- Both raise the kind. -/
  | raise (kind : ErrorKind) {t u : TableStore} (ht : t.Inv) (hu : u.Inv) : Agree (.raise kind t) (.raise kind u)

theorem Res.Agree.bind {α β : Type} {r r' : Res α} {f : α → TableStore → Res β} (h : r.Agree r')
    (hf : ∀ v t u, t.Inv → u.Inv → (f v t).Agree (f v u)) : (r.bind f).Agree (r'.bind f) := by
  cases h with
  | ok v ht hu => exact hf v _ _ ht hu
  | raise k ht hu => exact .raise k ht hu

theorem ite_ensureTables_inv {t : TableStore} (h : t.Inv) (c : Prop) [Decidable c] :
    (if c then t else ensureTables t).Inv := by
  split
  · exact h
  · exact ensureTables_inv h

section
variable {t u : TableStore} (ht : t.Inv) (hu : u.Inv)
include ht hu

theorem feMul_agree (a b : Byte) : (feMul t a b).Agree (feMul u a b) := by
  rw [feMul_of_built (ensureTables_built ht), feMul_of_built (ensureTables_built hu)]
  exact .ok _ (ite_ensureTables_inv ht _) (ite_ensureTables_inv hu _)

theorem feDiv_agree (a b : Byte) : (feDiv t a b).Agree (feDiv u a b) := by
  rw [feDiv_of_built (ensureTables_built ht), feDiv_of_built (ensureTables_built hu)]
  split
  · exact .raise _ ht hu
  · exact .ok _ (ite_ensureTables_inv ht _) (ite_ensureTables_inv hu _)

theorem fePowLoop_agree (f : Byte) (e : Nat) (acc : Byte) : (fePowLoop f e acc t).Agree (fePowLoop f e acc u) := by
  induction e generalizing acc t u with
  | zero => exact .ok _ ht hu
  | succ e ih => exact (feMul_agree ht hu acc f).bind fun v _ _ ht hu => ih ht hu v

theorem basisLoop_agree (x : Byte) (i : Nat) (xi : Byte) (j : Nat) (ps : List Point) (basis : Byte) :
    (basisLoop x i xi j ps basis t).Agree (basisLoop x i xi j ps basis u) := by
  induction ps generalizing j basis t u with
  | nil => exact .ok _ ht hu
  | cons p ps ih =>
    unfold basisLoop
    split
    · exact ih ht hu _ _
    · exact (feDiv_agree ht hu _ _).bind fun q _ _ ht hu =>
        (feMul_agree ht hu basis q).bind fun v _ _ ht hu => ih ht hu _ v

theorem sumLoop_agree (x : Byte) (points : List Point) (i : Nat) (ps : List Point) (sum : Byte) :
    (sumLoop x points i ps sum t).Agree (sumLoop x points i ps sum u) := by
  induction ps generalizing i sum t u with
  | nil => exact .ok _ ht hu
  | cons p ps ih =>
    exact (basisLoop_agree ht hu x i p.x 0 points 1).bind fun v _ _ ht hu =>
      (feMul_agree ht hu v p.y).bind fun w _ _ ht hu => ih ht hu _ _

theorem interpolate_agree (x : Byte) (points : List Point) : (interpolate t x points).Agree (interpolate u x points) := by
  unfold interpolate
  split
  · exact .raise _ ht hu
  · exact sumLoop_agree ht hu x points 0 points 0

theorem interpolateEach_agree (points : List Point) (xs : List Byte) :
    (interpolateEach points xs t).Agree (interpolateEach points xs u) := by
  induction xs generalizing t u with
  | nil => exact .ok _ ht hu
  | cons x xs ih =>
    exact (interpolate_agree ht hu x points).bind fun y _ _ ht hu => (ih ht hu).bind fun ys _ _ ht hu => .ok _ ht hu

theorem splitColumn_agree (k n : Nat) (drawn : List Byte) (b : Byte) :
    (splitColumn k n drawn b t).Agree (splitColumn k n drawn b u) := by
  unfold splitColumn
  split
  · exact .ok _ ht hu
  · exact (interpolateEach_agree ht hu _ _).bind fun ys _ _ ht hu => .ok _ ht hu

theorem splitLanes_agree (k n : Nat) (secret avail : List Byte) :
    (splitLanes k n secret avail t).Agree (splitLanes k n secret avail u) := by
  induction secret generalizing avail t u with
  | nil => exact .ok _ ht hu
  | cons b secret ih =>
    rcases Nat.lt_or_ge avail.length (k - 1) with hlt | hle
    · rw [splitLanes_cons_of_lt hlt, splitLanes_cons_of_lt hlt]
      exact .ok _ ht hu
    · rw [splitLanes_cons_of_le hle, splitLanes_cons_of_le hle]
      exact (splitColumn_agree ht hu k n _ b).bind fun column _ _ ht hu =>
        (ih ht hu _).bind fun lanes _ _ ht hu => .ok _ ht hu

theorem split_agree (k n : Nat) (secret avail : List Byte) :
    (split t k n secret avail).Agree (split u k n secret avail) := by
  unfold split
  split
  · exact .raise _ ht hu
  · split
    · exact .raise _ ht hu
    · split
      · exact .raise _ ht hu
      · split
        · exact .raise _ ht hu
        · exact splitLanes_agree ht hu k n secret avail

theorem recoverLanes_agree (shares : List Share) (ps : List Nat) :
    (recoverLanes shares ps t).Agree (recoverLanes shares ps u) := by
  induction ps generalizing t u with
  | nil => exact .ok _ ht hu
  | cons p ps ih =>
    exact (interpolate_agree ht hu _ _).bind fun b _ _ ht hu => (ih ht hu).bind fun bs _ _ ht hu => .ok _ ht hu

theorem recoverShares_agree (shares : List Share) : (recoverShares t shares).Agree (recoverShares u shares) := by
  unfold recoverShares
  cases shares with
  | nil => exact .raise _ ht hu
  | cons first others =>
    dsimp only
    split
    · exact .raise _ ht hu
    · split
      · exact .raise _ ht hu
      · exact recoverLanes_agree ht hu _ _

theorem mkShare_agree (index : Byte) (value : List Byte) : (mkShare t index value).Agree (mkShare u index value) := by
  unfold mkShare
  split
  · exact .raise _ ht hu
  · exact .ok _ ht hu

end

/-! ### One step, by what it finds (R180, R19, R181, R52) -/

theorem step_of_reset {s : State} (hr : s.resetAsserted = true) : step s = .next s.takeReset := by
  rw [step, if_pos hr]

theorem step_of_busy {s : State} {i : Instr} {drawn : List Byte} (hr : s.resetAsserted = false)
    (he : s.executor = .busy i drawn) : step s = exec i s := by
  simp [step, runExecutor, hr, he]

theorem step_of_no_frame {s : State} (hr : s.resetAsserted = false) (he : s.executor = .idle) (hc : s.commandIn = []) :
    step s = .next s := by
  simp [step, runExecutor, State.takeFrame, hr, he, hc]

theorem step_of_frame {s : State} {f : Frame} {rest : List Frame} (hr : s.resetAsserted = false)
    (he : s.executor = .idle) (hc : s.commandIn = f :: rest) : step s = runFrame f { s with commandIn := rest } := by
  simp [step, runExecutor, State.takeFrame, hr, he, hc]

/-! ### Two states that differ in the tables and the responses alone (R20, R22) -/

/-- Other tables and another history of responses. -/
def State.withTables (s : State) (t : TableStore) (history : List Frame) : State :=
  { s with tbl := t, responseOut := history }

/-- Two outcomes, from `s` and from `s` with another history: next states that differ in the tables and the history alone,
with the same responses added. -/
def Alike (s : State) (history : List Frame) (o o' : Host.Outcome State Fault Refusal) : Prop :=
  ∃ a u emitted, o = .next a ∧ a.responseOut = s.responseOut ++ emitted ∧
    o' = .next (a.withTables u (history ++ emitted))

theorem Alike.respond (s : State) (history : List Frame) (t t' u : TableStore) (r : Frame) :
    Alike s history (.next (s.respond t r)) (.next ((s.withTables u history).respond t' r)) :=
  ⟨_, t', [r], rfl, rfl, rfl⟩

/-- Next states with no response added. -/
theorem Alike.silent {s : State} (a : State) (h : a.responseOut = s.responseOut) (u : TableStore) (history : List Frame) :
    Alike s history (.next a) (.next (a.withTables u history)) :=
  ⟨a, u, [], rfl, by rw [h, List.append_nil], by rw [List.append_nil]⟩

theorem State.finish_alike {α : Type} (s : State) (history : List Frame) (u : TableStore) (p : α → List Byte)
    {r r' : Res α} (h : r.Agree r') : Alike s history (s.finish p r) ((s.withTables u history).finish p r') := by
  cases h with
  | ok v ht hu => exact .respond s history _ _ u _
  | raise k ht hu => exact .respond s history _ _ u _

theorem execSplit_alike {s : State} {u : TableStore} (ht : s.tbl.Inv) (hu : u.Inv) (history : List Frame) (k n : Byte)
    (secret : List Byte) :
    Alike s history (execSplit k n secret s) (execSplit k n secret (s.withTables u history)) := by
  have h := split_agree ht hu k.toNat n.toNat secret s.available
  have havail : (s.withTables u history).available = s.available := rfl
  have htbl : (s.withTables u history).tbl = u := rfl
  simp only [execSplit, havail, htbl]
  generalize split s.tbl k.toNat n.toNat secret s.available = r at h
  generalize split u k.toNat n.toNat secret s.available = r' at h
  cases h with
  | raise kind ht hu => exact .respond s history _ _ u _
  | ok lanes ht hu =>
    cases lanes with
    | done values rest => exact .respond { s with entropyIn := rest } history _ _ u _
    | starved => exact .silent (s.waitEntropy _ (.split k n secret)) rfl _ history

theorem exec_alike (i : Instr) {s : State} {u : TableStore} (ht : s.tbl.Inv) (hu : u.Inv) (history : List Frame) :
    Alike s history (exec i s) (exec i (s.withTables u history)) := by
  cases i with
  | fadd a b => exact .respond s history _ _ u _
  | fsub a b => exact .respond s history _ _ u _
  | mkpt x y => exact .respond s history _ _ u _
  | fmul a b => exact s.finish_alike history u _ (feMul_agree ht hu a b)
  | fdiv a b => exact s.finish_alike history u _ (feDiv_agree ht hu a b)
  | fpow f e => exact s.finish_alike history u _ (fePowLoop_agree ht hu f e.toNat 1)
  | interp x points => exact s.finish_alike history u _ (interpolate_agree ht hu x points)
  | split k n secret => exact execSplit_alike ht hu history k n secret
  | recsh shares => exact s.finish_alike history u _ (recoverShares_agree ht hu shares)
  | recpt points => exact s.finish_alike history u _ (interpolate_agree ht hu Config.xSecret points)
  | mkshr index value => exact s.finish_alike history u _ (mkShare_agree ht hu index value)

theorem runFrame_alike (f : Frame) {s : State} {u : TableStore} (ht : s.tbl.Inv) (hu : u.Inv) (history : List Frame) :
    Alike s history (runFrame f s) (runFrame f (s.withTables u history)) := by
  unfold runFrame
  cases decode f with
  | error e => exact .respond s history _ _ u _
  | ok i => exact exec_alike i ht hu history

theorem step_alike {s : State} {u : TableStore} (ht : s.tbl.Inv) (hu : u.Inv) (history : List Frame) :
    Alike s history (step s) (step (s.withTables u history)) := by
  cases hr : s.resetAsserted with
  | true =>
    rw [step_of_reset hr, step_of_reset (s := s.withTables u history) hr]
    exact .silent s.takeReset rfl State.reset.tbl history
  | false =>
    cases he : s.executor with
    | busy i drawn =>
      rw [step_of_busy hr he, step_of_busy (s := s.withTables u history) hr he]
      exact exec_alike i ht hu history
    | idle =>
      cases hc : s.commandIn with
      | nil =>
        rw [step_of_no_frame hr he hc, step_of_no_frame (s := s.withTables u history) hr he hc]
        exact .silent s rfl u history
      | cons f rest =>
        rw [step_of_frame hr he hc, step_of_frame (s := s.withTables u history) hr he hc]
        exact runFrame_alike f (s := { s with commandIn := rest }) ht hu history

/-- Settles O28: every lookup gives what R83 prints in either store, so the two runs end alike. -/
theorem responseIndependentOfTablesAndHistory : Obligations.ResponseIndependentOfTablesAndHistory :=
  fun _ _ history hs ht => step_alike hs.1 ht history

end Sys2Proof.Machine

/-! PROOFS. Decoded commands are well-formed; the invariant, what a step leaves alone, and the wait for entropy (O53, O14, O25,
O39, O40). -/

namespace Sys2Proof

/-! ### A decoded command is well-formed (R51, R66): its counts and lengths come from one-byte fields -/

theorem decodeFe3_wf {mk : Byte → Byte → Instr} (hmk : ∀ a b, (mk a b).wf = true) {args : List Byte} {i : Instr}
    (h : decodeFe3 mk args = .ok i) : i.wf = true := by
  unfold decodeFe3 at h
  split at h
  · cases h; exact hmk _ _
  · cases h

theorem pairPoints_length (body : List Byte) : (pairPoints body).length = body.length / 2 := by
  induction body using pairPoints.induct with
  | case1 x y rest ih => simp only [pairPoints, List.length_cons, ih]; omega
  | case2 body hshort =>
    match body with
    | [] => rfl
    | [_] => exact (Nat.div_eq_of_lt (by decide : 1 < 2)).symm
    | x :: y :: rest => exact (hshort x y rest rfl).elim

theorem decodePtx_wf {args : List Byte} {i : Instr} (h : decodePtx args = .ok i) : i.wf = true := by
  unfold decodePtx at h
  split at h
  · next x n body =>
    split at h
    · next hlen =>
      cases h
      have := n.isLt
      exact decide_eq_true (by rw [pairPoints_length, hlen, Config.pMax]; omega)
    · cases h
  · cases h

theorem decodePtl_wf {args : List Byte} {i : Instr} (h : decodePtl args = .ok i) : i.wf = true := by
  unfold decodePtl at h
  split at h
  · next n body =>
    split at h
    · next hlen =>
      cases h
      have := n.isLt
      exact decide_eq_true (by rw [pairPoints_length, hlen, Config.pMax]; omega)
    · cases h
  · cases h

theorem decodeSpl_wf {args : List Byte} {i : Instr} (h : decodeSpl args = .ok i) : i.wf = true := by
  unfold decodeSpl at h
  split at h
  · next k n len body =>
    split at h
    · next hlen => cases h; exact decide_eq_true (hlen ▸ Nat.le_of_lt_succ len.isLt)
    · cases h
  · cases h

theorem decodeShr_wf {args : List Byte} {i : Instr} (h : decodeShr args = .ok i) : i.wf = true := by
  unfold decodeShr at h
  split at h
  · next index len body =>
    split at h
    · next hlen => cases h; exact decide_eq_true (hlen ▸ Nat.le_of_lt_succ len.isLt)
    · cases h
  · cases h

theorem takeShares_eq_some {n : Nat} {body : List Byte} {shares : List Share} (h : takeShares n body = some shares) :
    shares.length = n ∧ ∀ sh ∈ shares, sh.wf = true := by
  induction n generalizing body shares with
  | zero =>
    cases body with
    | nil => cases h; exact ⟨rfl, fun _ hm => (List.not_mem_nil hm).elim⟩
    | cons b body => cases h
  | succ n ih =>
    match body with
    | [] => cases h
    | [_] => cases h
    | index :: len :: rest =>
      rw [takeShares] at h
      split at h
      · cases h
      · obtain ⟨others, hothers, rfl⟩ := Option.map_eq_some_iff.1 h
        obtain ⟨hlen, hwf⟩ := ih hothers
        refine ⟨congrArg (· + 1) hlen, List.forall_mem_cons.2 ⟨decide_eq_true ?_, hwf⟩⟩
        exact Nat.le_trans (List.length_take_le _ _) (Nat.le_of_lt_succ len.isLt)

theorem decodeShl_wf {args : List Byte} {i : Instr} (h : decodeShl args = .ok i) : i.wf = true := by
  unfold decodeShl at h
  split at h
  · next n body =>
    split at h
    · next shares hs =>
      cases h
      obtain ⟨hlen, hwf⟩ := takeShares_eq_some hs
      exact Bool.and_eq_true_iff.2
        ⟨decide_eq_true (hlen ▸ Nat.le_of_lt_succ n.isLt), List.all_eq_true.2 hwf⟩
    · cases h
  · cases h

theorem decode_wf {f : Frame} {i : Instr} (h : decode f = .ok i) : i.wf = true := by
  unfold decode at h
  split at h
  · cases h
  · split at h
    · exact decodeFe3_wf (fun _ _ => rfl) h
    · exact decodeFe3_wf (fun _ _ => rfl) h
    · exact decodeFe3_wf (fun _ _ => rfl) h
    · exact decodeFe3_wf (fun _ _ => rfl) h
    · exact decodeFe3_wf (fun _ _ => rfl) h
    · exact decodePtx_wf h
    · exact decodeSpl_wf h
    · exact decodeShl_wf h
    · exact decodePtl_wf h
    · exact decodeShr_wf h
    · exact decodeFe3_wf (fun _ _ => rfl) h
    · cases h

end Sys2Proof

namespace Sys2Proof.Machine

/-! ### The invariant (R17, R19) -/

/-- What SPLIT answers by what its work comes to. -/
theorem execSplit_eq_next {k n : Byte} {secret : List Byte} {s s' : State} (h : execSplit k n secret s = .next s') :
    (∃ values rest t, split s.tbl k.toNat n.toNat secret s.available = .ok (.done values rest) t ∧
        s' = { s with entropyIn := rest }.answered t (0x00 :: payloadShares (indexShares 0 values))) ∨
      (∃ t, split s.tbl k.toNat n.toNat secret s.available = .ok .starved t ∧
        s' = s.waitEntropy t (.split k n secret)) ∨
      ∃ kind t, split s.tbl k.toNat n.toNat secret s.available = .raise kind t ∧
        s' = s.answered t [kind.status] := by
  unfold execSplit at h
  split at h
  · next values rest t hs => cases h; exact .inl ⟨values, rest, t, hs, rfl⟩
  · next t hs => cases h; exact .inr (.inl ⟨t, hs, rfl⟩)
  · next kind t hs => cases h; exact .inr (.inr ⟨kind, t, hs, rfl⟩)
  · cases h

theorem execSplit_of_done {k n : Byte} {secret rest : List Byte} {values : List (List Byte)} {s : State}
    {t : TableStore} (h : split s.tbl k.toNat n.toNat secret s.available = .ok (.done values rest) t) :
    execSplit k n secret s =
      .next ({ s with entropyIn := rest }.answered t (0x00 :: payloadShares (indexShares 0 values))) := by
  rw [execSplit, h]
  rfl

theorem execSplit_of_starved {k n : Byte} {secret : List Byte} {s : State} {t : TableStore}
    (h : split s.tbl k.toNat n.toNat secret s.available = .ok .starved t) :
    execSplit k n secret s = .next (s.waitEntropy t (.split k n secret)) := by
  rw [execSplit, h]

/-- A command that is still in flight after its step is a SPLIT that starved. -/
theorem exec_eq_next_busy {i : Instr} {s s' : State} (h : exec i s = .next s') (hbusy : s'.executor ≠ .idle) :
    ∃ k n secret t, i = .split k n secret ∧
      split s.tbl k.toNat n.toNat secret s.available = .ok .starved t ∧ s' = s.waitEntropy t i := by
  obtain ⟨_, -, ⟨_, rfl⟩ | ⟨k, n, secret, rfl, -⟩⟩ := exec_next h
  · exact (hbusy rfl).elim
  · rcases execSplit_eq_next h with ⟨_, _, _, -, rfl⟩ | ⟨t, hs, e⟩ | ⟨_, _, -, rfl⟩
    · exact (hbusy rfl).elim
    · exact ⟨k, n, secret, t, rfl, hs, e⟩
    · exact (hbusy rfl).elim

/-- A command leaves the tables it found or the ensured ones. -/
theorem exec_reach {i : Instr} {s s' : State} (h : exec i s = .next s') : Reach s.tbl s'.tbl := by
  obtain ⟨t, ht, ⟨response, rfl⟩ | ⟨k, n, secret, rfl, ⟨rest, response, rfl⟩ | rfl⟩⟩ := exec_next h
  · exact ht
  · exact ht
  · exact ht

/-- A command keeps the tables' invariant, and a command that frames can carry waits only as the invariant says. -/
theorem exec_inv {i : Instr} {s s' : State} (ht : s.tbl.Inv) (hlen : ∀ k n secret, i = .split k n secret →
    secret.length ≤ Config.lMax) (h : exec i s = .next s') : s'.Inv := by
  refine ⟨(exec_reach h).inv ht, ?_⟩
  by_cases hidle : s'.executor = .idle
  · rw [hidle]; trivial
  · obtain ⟨k, n, secret, t, rfl, hs, rfl⟩ := exec_eq_next_busy h hidle
    obtain ⟨-, hk, hkn, hn, hlt, -⟩ := split_eq_starved hs
    exact ⟨hk, hkn, hn, hlen k n secret rfl, hlt⟩

theorem Executor.Inv.secret_length {i : Instr} {drawn : List Byte} (h : (Executor.busy i drawn).Inv) {k n : Byte}
    {secret : List Byte} (hi : i = .split k n secret) : secret.length ≤ Config.lMax := by
  subst hi
  obtain ⟨-, -, -, hlen, -⟩ := h
  exact hlen

theorem step_inv {s s' : State} (hs : s.Inv) (h : step s = .next s') : s'.Inv := by
  obtain ⟨ht, he⟩ := hs
  obtain ⟨-, rfl⟩ | ⟨-, ⟨-, -, rfl⟩ | ⟨f, rest, -, -, ⟨e, -, rfl⟩ | ⟨i, hd, hx⟩⟩ | ⟨i, drawn, hb, hx⟩⟩ := step_next h
  · exact ⟨reset_tbl_inv, trivial⟩
  · exact ⟨ht, he⟩
  · exact ⟨ht, trivial⟩
  · refine exec_inv (s := { s with commandIn := rest }) ht (fun k n secret hi => ?_) hx
    subst hi
    exact of_decide_eq_true (decode_wf hd)
  · rw [hb] at he
    exact exec_inv ht (fun _ _ _ => he.secret_length) hx

/-- Settles O53: reset, rejection and answers leave nothing in flight, and a command waits only past its checks. -/
theorem stepKeepsTheInvariant : Obligations.StepKeepsTheInvariant := fun _ _ => step_inv

/-! ### What a step and a command leave alone (R15, R18, R11) -/

/-- Settles O14: a command leaves the tables it found or the ensured ones, which are those it found where they are ready. -/
theorem readyTablesNeverChange : Obligations.ReadyTablesNeverChange := by
  intro s s' hready hreset h
  obtain ⟨hr, -⟩ | ⟨-, ⟨-, -, rfl⟩ | ⟨f, rest, -, -, ⟨e, -, rfl⟩ | ⟨i, -, hx⟩⟩ | ⟨i, drawn, -, hx⟩⟩ := step_next h
  · rw [hreset] at hr; cases hr
  · rfl
  · rfl
  · exact (exec_reach hx).eq_of_ready hready
  · exact (exec_reach hx).eq_of_ready hready

/-- SPLIT with threshold 1 in IDLE draws nothing (R122 (a)). -/
theorem execSplit_one_entropyIn {n : Byte} {secret : List Byte} {s s' : State} (he : s.executor = .idle)
    (h : execSplit 1 n secret s = .next s') : s'.entropyIn = s.entropyIn := by
  rcases execSplit_eq_next h with ⟨values, rest, t, hs, rfl⟩ | ⟨t, hs, rfl⟩ | ⟨kind, t, -, rfl⟩
  · obtain ⟨-, -, -, -, hl⟩ := split_eq_ok hs
    have havail : s.available = s.entropyIn := by rw [State.available, he, Executor.drawn_idle, List.nil_append]
    rcases splitLanes_eq_ok hl with ⟨e, -⟩ | ⟨-, values', e⟩ <;> cases e
    simp [havail]
  · obtain ⟨-, hk, -⟩ := split_eq_starved hs
    exact absurd hk (by decide)
  · rfl

/-- Settles O25: only SPLIT has anything but the tables and a response to change, and with threshold 1 it draws nothing. -/
theorem commandsLeaveThePortsAlone : Obligations.CommandsLeaveThePortsAlone := by
  intro i s s' h
  obtain ⟨t, -, ⟨response, rfl⟩ | ⟨k, n, secret, rfl, hsplit⟩⟩ := exec_next h
  · exact ⟨rfl, rfl, ⟨[response], rfl⟩, fun _ => rfl⟩
  · have hentropy : (∀ k' n' secret', Instr.split k n secret = .split k' n' secret' → k' = 1 ∧ s.executor = .idle) →
        s'.entropyIn = s.entropyIn := fun hone => by
      obtain ⟨rfl, he⟩ := hone k n secret rfl
      exact execSplit_one_entropyIn he h
    obtain ⟨rest, response, rfl⟩ | rfl := hsplit
    · exact ⟨rfl, rfl, ⟨[response], rfl⟩, hentropy⟩
    · exact ⟨rfl, rfl, List.prefix_rfl, hentropy⟩

/-! ### Waiting for entropy (R18, R188) -/

/-- Past its checks a SPLIT ends in lanes, whatever the tables (R121, R122 (c)). -/
theorem splitLanes_exists_ok {t : TableStore} (ht : t.Inv) {k : Nat} (hk : k ≤ 256) (n : Nat) (secret avail : List Byte) :
    ∃ lanes u, splitLanes k n secret avail t = .ok lanes u := by
  have hkind := splitLanes_within_of_le hk n secret avail t NoKind
  rcases Res.eq_of_noFault (splitLanes_noFault k n secret avail (ensureTables_built ht)) with h | ⟨kind, u, h⟩
  · exact h
  · rw [h] at hkind
    exact hkind.1.elim

theorem splitLanes_of_short {t : TableStore} (ht : t.Inv) {k n : Nat} {secret avail : List Byte} (hkn : k ≤ n)
    (hn : n ≤ Config.nMax) (h : avail.length < (k - 1) * secret.length) :
    splitLanes k n secret avail t =
      .ok .starved (if avail.length < k - 1 then t else ensureTables t) := by
  have hn' : n ≤ 16 := hn
  have hk : 2 ≤ k := by
    by_contra hlt
    rw [show k - 1 = 0 by omega, Nat.zero_mul] at h
    exact Nat.not_lt_zero _ h
  have hs : secret ≠ [] := fun e => by rw [e] at h; exact Nat.not_lt_zero _ h
  obtain ⟨lanes, u, hl⟩ := splitLanes_exists_ok ht (k := k) (by omega) n secret avail
  rw [hl, splitLanes_tables hk hkn (by omega) hs hl]
  rcases splitLanes_eq_ok hl with ⟨rfl, -⟩ | ⟨hle, -⟩
  · rfl
  · exact absurd h (Nat.not_lt.2 hle)

/-- Settles O39: past its checks a SPLIT is its lanes, and short of bytes they starve. -/
theorem splitWaitsForEntropy : Obligations.SplitWaitsForEntropy := by
  intro k n secret s hs hsecret hk hkn hn hlt
  have hsplit := split_of_checks (t := s.tbl) (avail := s.available) hsecret (Nat.ne_of_gt hk) hkn hn
  rw [splitLanes_of_short hs.1 hkn hn hlt] at hsplit
  exact execSplit_of_starved hsplit

/-- A SPLIT that starved ends alike, tables and all, from the tables it found and from those it left, once more bytes follow
those it had: where it had too few for one position it left the tables alone. -/
theorem split_append_of_starved {t u : TableStore} (ht : t.Inv) {k n : Nat} {secret avail : List Byte}
    (h : split t k n secret avail = .ok .starved u) (more : List Byte) :
    ∃ lanes v, split t k n secret (avail ++ more) = .ok lanes v ∧ split u k n secret (avail ++ more) = .ok lanes v := by
  obtain ⟨hs, hk, hkn, hn, -, hl⟩ := split_eq_starved h
  have hn' : n ≤ 16 := hn
  have hreach := (splitLanes_within k n secret avail t).reach_of_ok hl
  have hu : u = if avail.length < k - 1 then t else ensureTables t := splitLanes_tables hk hkn (by omega) hs hl
  rw [split_of_checks hs (by omega) hkn hn, split_of_checks hs (by omega) hkn hn]
  obtain ⟨lanes, v, hv⟩ := splitLanes_exists_ok ht (k := k) (by omega) n secret (avail ++ more)
  obtain ⟨lanes', w, hw⟩ := splitLanes_exists_ok (hreach.inv ht) (k := k) (by omega) n secret (avail ++ more)
  have hlanes : lanes' = lanes := by
    have hagree := splitLanes_agree ht (hreach.inv ht) k n secret (avail ++ more)
    rw [hv, hw] at hagree
    cases hagree
    rfl
  have htables : w = v := by
    rw [splitLanes_tables hk hkn (by omega) hs hv, splitLanes_tables hk hkn (by omega) hs hw, hreach.ensureTables_eq]
    split
    · next hshort =>
      rw [List.length_append] at hshort
      rw [hu, if_pos (by omega)]
    · rfl
  exact ⟨lanes, v, hv, hlanes ▸ htables ▸ hw⟩

/-- To wait once more, with later bytes delivered, is to wait with all of them delivered at once (log entry 5). -/
theorem State.waitEntropy_waitEntropy (s : State) (t u : TableStore) (i : Instr) (early late : List Byte) :
    { { s with entropyIn := early }.waitEntropy t i with entropyIn := late }.waitEntropy u i =
      { s with entropyIn := early ++ late }.waitEntropy u i := by
  simp [State.waitEntropy, State.available]

/-- Settles O40: both runs work over the same bytes, those drawn before the wait and those that came later. -/
theorem waitingSplitGoesOn : Obligations.WaitingSplitGoesOn := by
  intro k n secret early late s w hs h hbusy
  obtain ⟨_, _, _, t, hi, hstarved, rfl⟩ := exec_eq_next_busy h hbusy
  cases hi
  have hbytes : { s with entropyIn := early ++ late }.available = { s with entropyIn := early }.available ++ late :=
    (List.append_assoc _ _ _).symm
  obtain ⟨lanes, v, hv, hv'⟩ := split_append_of_starved (t := s.tbl) hs.1 hstarved late
  rw [← hbytes] at hv
  cases lanes with
  | done values rest => exact (execSplit_of_done hv').trans (execSplit_of_done hv).symm
  | starved =>
    have hwait := State.waitEntropy_waitEntropy s t v (.split k n secret) early late
    exact (execSplit_of_starved hv').trans ((congrArg _ hwait).trans (execSplit_of_starved hv).symm)

end Sys2Proof.Machine

/-! PROOFS. Entry by entry, what a command leaves of the tables (O15). -/

namespace Sys2Proof.Machine

/-! ### The build does not write LOG[0] (R16, R82): it writes LOG at powers of the generator, none of which is 0 -/

theorem fieldPower_gen_ne_zero {i : Nat} (hi : i < 256) : fieldPower Config.gen i ≠ 0 :=
  expEntry_eq_fieldPower hi ▸ expEntry_ne_zero hi

theorem buildLoop_log_read_zero {n i : Nat} (h : i + n ≤ 256) (t : TableStore) :
    (buildLoop n i (fieldPower Config.gen i) t).log.read 0 = t.log.read 0 := by
  induction n generalizing i t with
  | zero => rfl
  | succ n ih =>
    have hpos := toNat_pos_of_ne_zero (fieldPower_gen_ne_zero (i := i) (by omega))
    exact (ih (i := i + 1) (by omega) _).trans (Memory.read_write_of_ne _ _ (Nat.ne_of_lt hpos))

theorem buildTables_log_read_zero (t : TableStore) : (buildTables t).log.read 0 = t.log.read 0 := by
  rw [buildTables, TableStore.setReady_log, copyExpWrap_log]
  exact buildLoop_log_read_zero (i := 0) (by decide) t

theorem Reach.log_read_zero {t u : TableStore} (h : Reach t u) : u.log.read 0 = t.log.read 0 := by
  rcases h with rfl | rfl
  · rfl
  · rcases ensureTables_cases t with ⟨-, e⟩ | ⟨-, e⟩
    · rw [e]
    · rw [e, buildTables_log_read_zero]

/-! ### FADD, FSUB, MKSHR and MKPT look nothing up (R31) -/

theorem execMkshr_tbl {index : Byte} {value : List Byte} {s s' : State} (h : execMkshr index value s = .next s') :
    s'.tbl = s.tbl := by
  unfold execMkshr mkShare at h
  split at h <;> cases h <;> rfl

/-- Settles O15: the tables after a command are those it found or the ensured ones, the build leaves LOG[0] alone, and the
commands that look nothing up leave the whole store. -/
theorem commandsKeepTableEntries : Obligations.CommandsKeepTableEntries := by
  intro i s s' h
  have hreach := exec_reach h
  refine ⟨fun hready sp j => by rw [hreach.eq_of_ready hready], fun hi => ?_, hreach.log_read_zero⟩
  have htbl : s'.tbl = s.tbl := by
    cases i with
    | fadd a b => cases h; rfl
    | fsub a b => cases h; rfl
    | mkpt x y => cases h; rfl
    | mkshr index value => exact execMkshr_tbl h
    | _ => exact hi.elim
  rw [htbl]
  exact ⟨rfl, fun _ _ => rfl⟩

end Sys2Proof.Machine

/-! PROOFS. Frames and the decoder: the round trip in both directions, the length at which a frame decodes, and the answers to
frames that are no command (O16, O17, O18, O19, O20, O21). -/

namespace Sys2Proof

/-! ### Fields and bodies read back from a frame (R51, R59, R60, R62, R63) -/

theorem countByte_eq_of_length {α : Type} {l : List α} {n : Byte} (h : l.length = n.toNat) : countByte l = n := by
  rw [countByte, h, BitVec.ofNat_toNat, BitVec.setWidth_eq]

theorem pairPoints_flatMap_bytes (points : List Point) : pairPoints (points.flatMap Point.bytes) = points := by
  induction points with
  | nil => rfl
  | cons p points ih => exact congrArg (p :: ·) ih

theorem flatMap_bytes_pairPoints {n : Nat} {body : List Byte} (h : body.length = 2 * n) :
    (pairPoints body).flatMap Point.bytes = body := by
  induction body using pairPoints.induct generalizing n with
  | case1 x y rest ih =>
    rw [List.length_cons, List.length_cons] at h
    exact congrArg (x :: y :: ·) (ih (n := n - 1) (by omega))
  | case2 body hshort =>
    match body with
    | [] => rfl
    | [_] => rw [List.length_singleton] at h; omega
    | x :: y :: rest => exact (hshort x y rest rfl).elim

/-- A count and the points after it, laid out again as they were found. -/
theorem countByte_cons_flatMap_pairPoints {n : Byte} {body : List Byte} (h : body.length = 2 * n.toNat) :
    countByte (pairPoints body) :: (pairPoints body).flatMap Point.bytes = n :: body := by
  have hcount : (pairPoints body).length = n.toNat := by rw [pairPoints_length, h]; omega
  rw [flatMap_bytes_pairPoints h, countByte_eq_of_length hcount]

theorem takeShares_flatMap_record {shares : List Share} (h : ∀ sh ∈ shares, sh.wf = true) :
    takeShares shares.length (shares.flatMap Share.record) = some shares := by
  induction shares with
  | nil => rfl
  | cons sh shares ih =>
    obtain ⟨hsh, hrest⟩ := List.forall_mem_cons.1 h
    have hlen : (countByte sh.value).toNat = sh.value.length := countByte_toNat (of_decide_eq_true hsh)
    simp [Share.record, takeShares, hlen, ih hrest]

/-- The records read are the bytes they were read from, with none left over. -/
theorem flatMap_record_of_takeShares {n : Nat} {body : List Byte} {shares : List Share}
    (h : takeShares n body = some shares) : shares.flatMap Share.record = body := by
  induction n generalizing body shares with
  | zero =>
    cases body with
    | nil => cases h; rfl
    | cons b body => cases h
  | succ n ih =>
    match body with
    | [] => cases h
    | [_] => cases h
    | index :: len :: rest =>
      rw [takeShares] at h
      split at h
      · cases h
      · next hlen =>
        obtain ⟨others, hothers, rfl⟩ := Option.map_eq_some_iff.1 h
        have hcount : countByte (rest.take len.toNat) = len :=
          countByte_eq_of_length (List.length_take_of_le (Nat.not_lt.1 hlen))
        rw [List.flatMap_cons, ih hothers, Share.record, hcount]
        exact congrArg (index :: len :: ·) (List.take_append_drop _ _)

/-- Share records are read exactly where their `len` fields add up to the bytes there are (R67). -/
theorem takeShares_isSome_iff (n : Nat) (body : List Byte) :
    (takeShares n body).isSome ↔ recordsLength n body = body.length := by
  induction n generalizing body with
  | zero => cases body <;> simp [takeShares, recordsLength]
  | succ n ih =>
    match body with
    | [] => exact iff_of_false nofun (by rw [recordsLength, List.length_nil]; omega)
    | [_] => exact iff_of_false nofun (by rw [recordsLength, List.length_singleton]; omega)
    | index :: len :: rest =>
      have hfield : byteAt (index :: len :: rest) 1 = len := rfl
      have hdrop : (index :: len :: rest).drop (2 + len.toNat) = rest.drop len.toNat := by
        rw [Nat.add_comm]; rfl
      rw [takeShares, recordsLength, hfield, hdrop, List.length_cons, List.length_cons]
      split
      · exact iff_of_false nofun (by omega)
      · rw [Option.isSome_map, ih, List.length_drop]; omega

/-! ### The decoder after the encoder (R66) -/

theorem decodePtx_of_points (x : Byte) {points : List Point} (h : points.length ≤ 255) :
    decodePtx (x :: countByte points :: points.flatMap Point.bytes) = .ok (.interp x points) := by
  rw [decodePtx, flatMap_bytes_length, countByte_toNat h, if_pos rfl, pairPoints_flatMap_bytes]

theorem decodePtl_of_points {points : List Point} (h : points.length ≤ 255) :
    decodePtl (countByte points :: points.flatMap Point.bytes) = .ok (.recpt points) := by
  rw [decodePtl, flatMap_bytes_length, countByte_toNat h, if_pos rfl, pairPoints_flatMap_bytes]

theorem decodeSpl_of_secret (k n : Byte) {secret : List Byte} (h : secret.length ≤ 255) :
    decodeSpl (k :: n :: countByte secret :: secret) = .ok (.split k n secret) :=
  if_pos (countByte_toNat h).symm

theorem decodeShr_of_value (index : Byte) {value : List Byte} (h : value.length ≤ 255) :
    decodeShr (index :: countByte value :: value) = .ok (.mkshr index value) :=
  if_pos (countByte_toNat h).symm

theorem decodeShl_of_shares {shares : List Share} (h : shares.length ≤ 255) (hwf : ∀ sh ∈ shares, sh.wf = true) :
    decodeShl (countByte shares :: shares.flatMap Share.record) = .ok (.recsh shares) := by
  rw [decodeShl, countByte_toNat h, takeShares_flatMap_record hwf]

/-- Settles O16: byte 0 selects the format, and each format's decoder reads back what the encoder laid out. -/
theorem decodeOfEncode : Obligations.DecodeOfEncode := by
  intro i hwf
  cases i with
  | fadd a b => rfl
  | fsub a b => rfl
  | fmul a b => rfl
  | fdiv a b => rfl
  | fpow f e => rfl
  | mkpt x y => rfl
  | interp x points => exact decodePtx_of_points x (of_decide_eq_true hwf)
  | recpt points => exact decodePtl_of_points (of_decide_eq_true hwf)
  | split k n secret => exact decodeSpl_of_secret k n (of_decide_eq_true hwf)
  | mkshr index value => exact decodeShr_of_value index (of_decide_eq_true hwf)
  | recsh shares =>
    obtain ⟨hlen, hall⟩ := Bool.and_eq_true_iff.1 hwf
    exact decodeShl_of_shares (of_decide_eq_true hlen) (List.all_eq_true.1 hall)

/-! ### The encoder after the decoder (R66, R51) -/

theorem encode_of_decodeFe3 {op : Byte} {mk : Byte → Byte → Instr} (hmk : ∀ a b, encode (mk a b) = [op, a, b])
    {args : List Byte} {i : Instr} (h : decodeFe3 mk args = .ok i) : encode i = op :: args := by
  unfold decodeFe3 at h
  split at h
  · next a b => cases h; exact hmk a b
  · cases h

theorem encode_of_decodePtx {args : List Byte} {i : Instr} (h : decodePtx args = .ok i) : encode i = 0x10 :: args := by
  unfold decodePtx at h
  split at h
  · next x n body =>
    split at h
    · next hlen => cases h; exact congrArg (0x10 :: x :: ·) (countByte_cons_flatMap_pairPoints hlen)
    · cases h
  · cases h

theorem encode_of_decodePtl {args : List Byte} {i : Instr} (h : decodePtl args = .ok i) : encode i = 0x22 :: args := by
  unfold decodePtl at h
  split at h
  · next n body =>
    split at h
    · next hlen => cases h; exact congrArg (0x22 :: ·) (countByte_cons_flatMap_pairPoints hlen)
    · cases h
  · cases h

theorem encode_of_decodeSpl {args : List Byte} {i : Instr} (h : decodeSpl args = .ok i) : encode i = 0x20 :: args := by
  unfold decodeSpl at h
  split at h
  · next k n len body =>
    split at h
    · next hlen => cases h; rw [encode, countByte_eq_of_length hlen]
    · cases h
  · cases h

theorem encode_of_decodeShr {args : List Byte} {i : Instr} (h : decodeShr args = .ok i) : encode i = 0x30 :: args := by
  unfold decodeShr at h
  split at h
  · next index len body =>
    split at h
    · next hlen => cases h; rw [encode, countByte_eq_of_length hlen]
    · cases h
  · cases h

theorem encode_of_decodeShl {args : List Byte} {i : Instr} (h : decodeShl args = .ok i) : encode i = 0x21 :: args := by
  unfold decodeShl at h
  split at h
  · next n body =>
    split at h
    · next shares hs =>
      cases h
      rw [encode, countByte_eq_of_length (takeShares_eq_some hs).1, flatMap_record_of_takeShares hs]
    · cases h
  · cases h

theorem encode_of_decode {f : Frame} {i : Instr} (h : decode f = .ok i) : encode i = f := by
  unfold decode at h
  split at h
  · cases h
  · split at h
    · exact encode_of_decodeFe3 (fun _ _ => rfl) h
    · exact encode_of_decodeFe3 (fun _ _ => rfl) h
    · exact encode_of_decodeFe3 (fun _ _ => rfl) h
    · exact encode_of_decodeFe3 (fun _ _ => rfl) h
    · exact encode_of_decodeFe3 (fun _ _ => rfl) h
    · exact encode_of_decodePtx h
    · exact encode_of_decodeSpl h
    · exact encode_of_decodeShl h
    · exact encode_of_decodePtl h
    · exact encode_of_decodeShr h
    · exact encode_of_decodeFe3 (fun _ _ => rfl) h
    · cases h

/-- Settles O17: the counts and lengths the decoder checked are those the encoder writes, and each body is laid out again as
it was read. -/
theorem encodeOfDecode : Obligations.EncodeOfDecode := fun _ _ h => ⟨decode_wf h, encode_of_decode h⟩

/-- Settles O18: the nine frames, evaluated. -/
theorem sampleFramesDecode : Obligations.SampleFramesDecode := ⟨rfl, rfl, rfl, rfl, rfl, rfl, rfl, rfl, rfl⟩

/-! ### The length decides (R55, R66, R67) -/

/-- The eleven opcodes (R53). -/
def knownOpcodes : List Byte := [0x01, 0x02, 0x03, 0x04, 0x05, 0x10, 0x20, 0x21, 0x22, 0x30, 0x31]

/-- The frame decodes where its length is the one its format demands, and is a BadFrame elsewhere. -/
def DecidedByLength (f : Frame) : Prop :=
  (formatLength f = some f.length ∧ ∃ i, decode f = .ok i) ∨
    (formatLength f ≠ some f.length ∧ decode f = .error .badFrame)

theorem DecidedByLength.of_eq {f : Frame} {demanded : Nat} {i : Instr} (hf : formatLength f = some demanded)
    (hlen : demanded = f.length) (hd : decode f = .ok i) : DecidedByLength f :=
  .inl ⟨hlen ▸ hf, i, hd⟩

theorem DecidedByLength.of_ne {f : Frame} {demanded : Nat} (hf : formatLength f = some demanded)
    (hlen : demanded ≠ f.length) (hd : decode f = .error .badFrame) : DecidedByLength f :=
  .inr ⟨fun h => hlen (Option.some.inj (hf.symm.trans h)), hd⟩

/-- A format that compares one length field with the bytes after it. -/
theorem DecidedByLength.of_ite {f : Frame} {demanded : Nat} {c : Prop} [Decidable c] {i : Instr}
    (hf : formatLength f = some demanded) (hc : demanded = f.length ↔ c)
    (hd : decode f = if c then .ok i else .error .badFrame) : DecidedByLength f := by
  by_cases h : c
  · exact .of_eq hf (hc.2 h) (hd.trans (if_pos h))
  · exact .of_ne hf (mt hc.1 h) (hd.trans (if_neg h))

theorem decidedByLength_fe3 {op : Byte} {mk : Byte → Byte → Instr} {args : List Byte}
    (hd : decode (op :: args) = decodeFe3 mk args) (hf : formatLength (op :: args) = some 3) :
    DecidedByLength (op :: args) := by
  match args with
  | [] => exact .of_ne hf (by simp) hd
  | [_] => exact .of_ne hf (by simp) hd
  | [_, _] => exact .of_eq hf rfl hd
  | _ :: _ :: _ :: _ => exact .of_ne hf (by simp) hd

theorem decidedByLength_ptx (args : List Byte) : DecidedByLength (0x10 :: args) := by
  match args with
  | [] => exact .of_ne (demanded := 3) rfl (by simp) rfl
  | [_] => exact .of_ne (demanded := 3) rfl (by simp) rfl
  | x :: n :: body =>
    refine .of_ite (demanded := 3 + 2 * n.toNat) (c := body.length = 2 * n.toNat) rfl ?_ rfl
    simp only [List.length_cons]; omega

theorem decidedByLength_ptl (args : List Byte) : DecidedByLength (0x22 :: args) := by
  match args with
  | [] => exact .of_ne (demanded := 2) rfl (by simp) rfl
  | n :: body =>
    refine .of_ite (demanded := 2 + 2 * n.toNat) (c := body.length = 2 * n.toNat) rfl ?_ rfl
    simp only [List.length_cons]; omega

theorem decidedByLength_spl (args : List Byte) : DecidedByLength (0x20 :: args) := by
  match args with
  | [] => exact .of_ne (demanded := 4) rfl (by simp) rfl
  | [_] => exact .of_ne (demanded := 4) rfl (by simp) rfl
  | [_, _] => exact .of_ne (demanded := 4) rfl (by simp) rfl
  | k :: n :: len :: body =>
    refine .of_ite (demanded := 4 + len.toNat) (c := body.length = len.toNat) rfl ?_ rfl
    simp only [List.length_cons]; omega

theorem decidedByLength_shr (args : List Byte) : DecidedByLength (0x30 :: args) := by
  match args with
  | [] => exact .of_ne (demanded := 3) rfl (by simp) rfl
  | [_] => exact .of_ne (demanded := 3) rfl (by simp) rfl
  | index :: len :: body =>
    refine .of_ite (demanded := 3 + len.toNat) (c := body.length = len.toNat) rfl ?_ rfl
    simp only [List.length_cons]; omega

theorem decidedByLength_shl (args : List Byte) : DecidedByLength (0x21 :: args) := by
  match args with
  | [] => exact .of_ne (demanded := 2) rfl (by simp) rfl
  | n :: body =>
    have hf : formatLength (0x21 :: n :: body) = some (2 + recordsLength n.toNat body) := rfl
    have hd : decode (0x21 :: n :: body) = decodeShl (n :: body) := rfl
    have hiff := takeShares_isSome_iff n.toNat body
    rw [decodeShl] at hd
    cases h : takeShares n.toNat body with
    | some shares =>
      rw [h] at hd hiff
      refine .of_eq hf ?_ hd
      rw [hiff.1 rfl]; simp only [List.length_cons]; omega
    | none =>
      rw [h] at hd hiff
      refine .of_ne hf (fun hlen => ?_) hd
      simp only [List.length_cons] at hlen
      cases hiff.2 (by omega)

theorem decidedByLength_of_known {op : Byte} (h : op ∈ knownOpcodes) (args : List Byte) :
    DecidedByLength (op :: args) := by
  simp only [knownOpcodes, List.mem_cons, List.not_mem_nil, or_false] at h
  obtain rfl | rfl | rfl | rfl | rfl | rfl | rfl | rfl | rfl | rfl | rfl := h
  · exact decidedByLength_fe3 rfl rfl
  · exact decidedByLength_fe3 rfl rfl
  · exact decidedByLength_fe3 rfl rfl
  · exact decidedByLength_fe3 rfl rfl
  · exact decidedByLength_fe3 rfl rfl
  · exact decidedByLength_ptx args
  · exact decidedByLength_spl args
  · exact decidedByLength_shl args
  · exact decidedByLength_ptl args
  · exact decidedByLength_shr args
  · exact decidedByLength_fe3 rfl rfl

theorem decode_of_reserved {op : Byte} (h : op ∉ knownOpcodes) (args : List Byte) :
    decode (op :: args) = .error .badCommand := by
  simp only [decode]
  split
  case h_12 => rfl
  all_goals exact (h (by decide)).elim

theorem formatLength_of_reserved {op : Byte} (h : op ∉ knownOpcodes) (args : List Byte) :
    formatLength (op :: args) = none := by
  have hop : byteAt (op :: args) 0 = op := rfl
  rw [formatLength, hop]
  split
  case h_12 => rfl
  all_goals exact (h (by decide)).elim

theorem not_exists_ok_of_error {r : Except DecodeError Instr} {e : DecodeError} (h : r = .error e) :
    ¬ ∃ i, r = .ok i := by
  rintro ⟨i, hok⟩
  cases h.symm.trans hok

/-- Settles O19: a frame with a known opcode is decided by its length; no other frame decodes or has a format. -/
theorem frameDecodesAtItsLength : Obligations.FrameDecodesAtItsLength := by
  intro f
  cases f with
  | nil => exact iff_of_false (not_exists_ok_of_error rfl) nofun
  | cons op args =>
    by_cases hop : op ∈ knownOpcodes
    · obtain ⟨hlen, hok⟩ | ⟨hlen, hd⟩ := decidedByLength_of_known hop args
      · exact iff_of_true hok hlen
      · exact iff_of_false (not_exists_ok_of_error hd) hlen
    · rw [formatLength_of_reserved hop args]
      exact iff_of_false (not_exists_ok_of_error (decode_of_reserved hop args)) nofun

end Sys2Proof

namespace Sys2Proof.Machine

/-! ### A step at a frame, by what the frame decodes to (R52, R55) -/

/-- Settles O21: an idle unit takes the frame, decodes it and runs the command. -/
theorem stepRunsTheDecodedCommand : Obligations.StepRunsTheDecodedCommand := by
  intro s f rest i hr he hc hd
  rw [step_of_frame hr he hc, runFrame, hd]

theorem step_of_decode_error {s : State} {f : Frame} {rest : List Frame} {e : DecodeError}
    (hr : s.resetAsserted = false) (he : s.executor = .idle) (hc : s.commandIn = f :: rest) (hd : decode f = .error e) :
    step s = .next ({ s with commandIn := rest }.answered s.tbl [decodeStatus e]) := by
  rw [step_of_frame hr he hc, runFrame, hd]
  rfl

/-- Settles O20: the empty frame and a known opcode at a wrong length are BadFrame, a reserved opcode is BadCommand, and a
rejected frame is answered with its status byte. -/
theorem rejectedFramesAreAnswered : Obligations.RejectedFramesAreAnswered := by
  intro s f rest hr he hc
  refine ⟨?_, ?_⟩
  · rintro rfl
    exact step_of_decode_error hr he hc rfl
  · rintro op args rfl
    refine ⟨fun hop => step_of_decode_error hr he hc (decode_of_reserved hop args), fun hop hlen => ?_⟩
    obtain ⟨heq, -⟩ | ⟨-, hd⟩ := decidedByLength_of_known hop args
    · exact (hlen heq).elim
    · exact step_of_decode_error hr he hc hd

end Sys2Proof.Machine

/-! PROOFS. The responses a step emits: one or none, and their form and length (O23, O24). -/

namespace Sys2Proof.Machine

/-! ### One response, or a wait with none (R50, R18, R19) -/

theorem exec_answers_or_waits {i : Instr} {s s' : State} (h : exec i s = .next s') :
    s'.commandIn = s.commandIn ∧
      ((s'.executor = .idle ∧ ∃ r, s'.responseOut = s.responseOut ++ [r]) ∨
        (s'.executor ≠ .idle ∧ s'.responseOut = s.responseOut)) := by
  obtain ⟨t, -, ⟨r, rfl⟩ | ⟨k, n, secret, rfl, ⟨rest, r, rfl⟩ | rfl⟩⟩ := exec_next h
  · exact ⟨rfl, .inl ⟨rfl, r, rfl⟩⟩
  · exact ⟨rfl, .inl ⟨rfl, r, rfl⟩⟩
  · exact ⟨rfl, .inr ⟨nofun, rfl⟩⟩

/-- Settles O23: a rejection is one response, and a command, taken or gone on with, answers once or waits. -/
theorem oneResponsePerCommand : Obligations.OneResponsePerCommand := by
  intro s s' hreset h
  obtain ⟨hr, -⟩ | ⟨-, ⟨he, hc, rfl⟩ | ⟨f, rest, he, hc, ⟨e, -, rfl⟩ | ⟨i, -, hx⟩⟩ | ⟨i, drawn, hb, hx⟩⟩ := step_next h
  · rw [hreset] at hr; cases hr
  · exact .inr ⟨he, hc, rfl⟩
  · exact .inl ⟨.inl ⟨f, he, hc⟩, .inl ⟨rfl, _, rfl⟩⟩
  · obtain ⟨hin, hout⟩ := exec_answers_or_waits hx
    exact .inl ⟨.inl ⟨f, he, by rw [hc, hin]⟩, hout⟩
  · obtain ⟨hin, hout⟩ := exec_answers_or_waits hx
    exact .inl ⟨.inr ⟨by rw [hb]; nofun, hin⟩, hout⟩

/-! ### The form of a response (R56, R151) and its length (R43) -/

/-- A status byte of R151's table, alone unless it is OK, in at most 4,114 bytes. -/
def IsResponse (r : Frame) : Prop :=
  ∃ status payload, r = status :: payload ∧
    status ∈ ([0x00, 0x01, 0x02, 0x03, 0x04, 0x05, 0x06, 0x07, 0x80, 0x81] : List Byte) ∧
    (status ≠ 0x00 → payload = []) ∧ r.length ≤ 4114

theorem isResponse_ok {payload : List Byte} (h : payload.length ≤ 4113) : IsResponse (0x00 :: payload) :=
  ⟨0x00, payload, rfl, by decide, fun hne => (hne rfl).elim, Nat.succ_le_succ h⟩

theorem isResponse_error (kind : ErrorKind) : IsResponse [kind.status] :=
  ⟨kind.status, [], rfl, by cases kind <;> decide, fun _ => rfl, by simp⟩

theorem isResponse_reject (e : DecodeError) : IsResponse [decodeStatus e] :=
  ⟨decodeStatus e, [], rfl, by cases e <;> decide, fun _ => rfl, by simp⟩

/-- From `s` to `s'` at most one response is emitted, and it is one of R151's form. -/
def EmitsResponse (s s' : State) : Prop := ∀ r, s'.responseOut = s.responseOut ++ [r] → IsResponse r

theorem EmitsResponse.of_answer {s s' : State} {r : Frame} (h : IsResponse r)
    (hout : s'.responseOut = s.responseOut ++ [r]) : EmitsResponse s s' := by
  intro r' hr'
  obtain rfl : r = r' := by simpa using hout.symm.trans hr'
  exact h

theorem EmitsResponse.of_silent {s s' : State} (hout : s'.responseOut = s.responseOut) : EmitsResponse s s' := by
  intro r hr
  simpa using hout.symm.trans hr

theorem State.finish_emitsResponse {α : Type} {s s' : State} {p : α → List Byte} {r : Res α}
    (hp : ∀ v t, r = .ok v t → (p v).length ≤ 4113) (h : s.finish p r = .next s') : EmitsResponse s s' := by
  rcases State.finish_eq_next h with ⟨v, t, hr, rfl⟩ | ⟨kind, t, -, rfl⟩
  · exact .of_answer (isResponse_ok (hp v t hr)) rfl
  · exact .of_answer (isResponse_error kind) rfl

theorem State.finish_payloadByte_emitsResponse {s s' : State} {r : Res Byte} (h : s.finish payloadByte r = .next s') :
    EmitsResponse s s' :=
  State.finish_emitsResponse (fun _ _ _ => by simp [payloadByte]) h

/-! ### The lengths of the long payloads (R65) -/

theorem recoverLanes_length {shares : List Share} {ps : List Nat} {t u : TableStore} {out : List Byte}
    (h : recoverLanes shares ps t = .ok out u) : out.length = ps.length := by
  induction ps generalizing t u out with
  | nil => cases h; rfl
  | cons p ps ih =>
    obtain ⟨b, v, -, h⟩ := Res.bind_eq_ok h
    obtain ⟨bs, w, hbs, h⟩ := Res.bind_eq_ok h
    cases h
    exact congrArg (· + 1) (ih hbs)

/-- RECSH recovers as many bytes as each share's value has. -/
theorem recoverShares_length {shares : List Share} {t u : TableStore} {out : List Byte}
    (h : recoverShares t shares = .ok out u) : ∃ sh ∈ shares, out.length = sh.value.length := by
  unfold recoverShares at h
  split at h
  · cases h
  · next first others =>
    split at h
    · cases h
    · split at h
      · cases h
      · exact ⟨first, List.mem_cons_self, (recoverLanes_length h).trans List.length_range⟩

/-- SPLIT lays out at most N share values, each as long as the secret. -/
theorem splitLanes_values {k n : Nat} {secret avail rest : List Byte} {values : List (List Byte)} {t u : TableStore}
    (h : splitLanes k n secret avail t = .ok (.done values rest) u) :
    values.length ≤ n ∧ ∀ v ∈ values, v.length = secret.length := by
  induction secret generalizing avail t u values rest with
  | nil => cases h; exact ⟨by rw [List.length_replicate], fun v hv => by rw [List.eq_of_mem_replicate hv]⟩
  | cons b secret ih =>
    rcases Nat.lt_or_ge avail.length (k - 1) with hk | hk
    · rw [splitLanes_cons_of_lt hk] at h
      cases h
    · rw [splitLanes_cons_of_le hk] at h
      obtain ⟨column, v, -, h⟩ := Res.bind_eq_ok h
      obtain ⟨lanes, w, hl, h⟩ := Res.bind_eq_ok h
      cases lanes with
      | starved => cases h
      | done inner rest' =>
        cases h
        obtain ⟨hlen, hinner⟩ := ih hl
        refine ⟨?_, fun v hv => ?_⟩
        · rw [List.length_zipWith]; omega
        · rw [← List.map_uncurry_zip_eq_zipWith] at hv
          obtain ⟨⟨c, w⟩, hcw, rfl⟩ := List.mem_map.1 hv
          exact congrArg (· + 1) (hinner w (List.of_mem_zip hcw).2)

theorem indexShares_length (i : Nat) (values : List (List Byte)) : (indexShares i values).length = values.length := by
  induction values generalizing i with
  | nil => rfl
  | cons v values ih => exact congrArg (· + 1) (ih (i + 1))

theorem value_mem_of_mem_indexShares {i : Nat} {values : List (List Byte)} {sh : Share}
    (h : sh ∈ indexShares i values) : sh.value ∈ values := by
  induction values generalizing i with
  | nil => cases h
  | cons v values ih =>
    rcases List.mem_cons.1 h with rfl | h
    · exact List.mem_cons_self
    · exact List.mem_cons_of_mem _ (ih h)

/-- The longest payload: N, then at most 16 records of at most 255 bytes each. -/
theorem payloadShares_length_le {values : List (List Byte)} (hn : values.length ≤ Config.nMax)
    (hlen : ∀ v ∈ values, v.length ≤ Config.lMax) : (payloadShares (indexShares 0 values)).length ≤ 4113 := by
  have hrecords := records_length_le (shares := indexShares 0 values) fun sh hsh =>
    decide_eq_true (hlen _ (value_mem_of_mem_indexShares hsh))
  have hn' : values.length ≤ 16 := hn
  rw [indexShares_length] at hrecords
  rw [payloadShares, List.length_cons]
  omega

/-! ### Every command and every step (R52, R56) -/

theorem execSplit_emitsResponse {k n : Byte} {secret : List Byte} {s s' : State} (hlen : secret.length ≤ Config.lMax)
    (h : execSplit k n secret s = .next s') : EmitsResponse s s' := by
  rcases execSplit_eq_next h with ⟨values, rest, t, hs, rfl⟩ | ⟨t, -, rfl⟩ | ⟨kind, t, -, rfl⟩
  · obtain ⟨-, -, -, hn, hl⟩ := split_eq_ok hs
    obtain ⟨hcount, hvalues⟩ := splitLanes_values hl
    have hpayload := payloadShares_length_le (hcount.trans hn) fun v hv => hvalues v hv ▸ hlen
    exact .of_answer (isResponse_ok hpayload) rfl
  · exact .of_silent rfl
  · exact .of_answer (isResponse_error kind) rfl

theorem execRecsh_emitsResponse {shares : List Share} {s s' : State} (hwf : ∀ sh ∈ shares, sh.wf = true)
    (h : execRecsh shares s = .next s') : EmitsResponse s s' := by
  refine State.finish_emitsResponse (fun out t hok => ?_) h
  obtain ⟨sh, hsh, hlen⟩ := recoverShares_length hok
  have hvalue : sh.value.length ≤ 255 := of_decide_eq_true (hwf sh hsh)
  rw [payloadSecret, List.length_cons]
  omega

theorem execMkshr_emitsResponse {index : Byte} {value : List Byte} {s s' : State} (hlen : value.length ≤ 255)
    (h : execMkshr index value s = .next s') : EmitsResponse s s' := by
  refine State.finish_emitsResponse (fun sh t hok => ?_) h
  unfold mkShare at hok
  split at hok <;> cases hok
  rw [record_length]
  exact Nat.le_trans (Nat.add_le_add_left hlen 2) (by decide)

theorem execMkpt_emitsResponse {x y : Byte} {s s' : State} (h : execMkpt x y s = .next s') : EmitsResponse s s' :=
  State.finish_emitsResponse (fun _ _ _ => by simp [Point.bytes]) h

/-- A command that a frame can carry emits responses of R151's form only. -/
theorem exec_emitsResponse {i : Instr} {s s' : State} (hwf : i.wf = true) (h : exec i s = .next s') :
    EmitsResponse s s' := by
  cases i with
  | fadd a b => exact State.finish_payloadByte_emitsResponse (r := .ok (feAdd a b) s.tbl) h
  | fsub a b => exact State.finish_payloadByte_emitsResponse (r := .ok (feSub a b) s.tbl) h
  | fmul a b => exact State.finish_payloadByte_emitsResponse h
  | fdiv a b => exact State.finish_payloadByte_emitsResponse h
  | fpow f e => exact State.finish_payloadByte_emitsResponse h
  | interp x points => exact State.finish_payloadByte_emitsResponse h
  | recpt points => exact State.finish_payloadByte_emitsResponse h
  | mkpt x y => exact execMkpt_emitsResponse h
  | mkshr index value => exact execMkshr_emitsResponse (of_decide_eq_true hwf) h
  | split k n secret => exact execSplit_emitsResponse (of_decide_eq_true hwf) h
  | recsh shares => exact execRecsh_emitsResponse (List.all_eq_true.1 (Bool.and_eq_true_iff.1 hwf).2) h

/-- The command in flight is one that a frame can carry. -/
theorem Executor.Inv.wf {i : Instr} {drawn : List Byte} (h : (Executor.busy i drawn).Inv) : i.wf = true := by
  cases i with
  | split k n secret => exact decide_eq_true (h.secret_length rfl)
  | _ => exact h.elim

/-- Settles O24: reset and idling emit nothing, a rejection its status byte, and a command what `exec` emits. -/
theorem responsesAreWellFormed : Obligations.ResponsesAreWellFormed := by
  intro s s' r hs h
  suffices hemits : EmitsResponse s s' from hemits r
  obtain ⟨-, rfl⟩ | ⟨-, ⟨-, -, rfl⟩ | ⟨f, rest, -, -, ⟨e, -, rfl⟩ | ⟨i, hd, hx⟩⟩ | ⟨i, drawn, hb, hx⟩⟩ := step_next h
  · exact .of_silent rfl
  · exact .of_silent rfl
  · exact .of_answer (isResponse_reject e) rfl
  · exact exec_emitsResponse (s := { s with commandIn := rest }) (decode_wf hd) hx
  · have hinv := hs.2
    rw [hb] at hinv
    exact exec_emitsResponse hinv.wf hx

end Sys2Proof.Machine

/-! PROOFS. The field unit: the polynomial product is a field's product, the table method computes it, and what FADD, FSUB,
FMUL, FDIV and FPOW answer (O1, O2, O3, O4, O5, O6, O8, O9, O10, O11, O13). -/

namespace Sys2Proof.Machine

/-! ### The polynomial product is commutative and associative, with 0 and 1 (R91, R94)

Every map that is additive and commutes with `xtime` passes through the loop of R91. The map "times c" is one, so two factors
can be exchanged; commutativity is the case of first factor 1, and associativity follows. -/

theorem clmulLoop_map {m : Byte → Byte} (hadd : ∀ a b, m (a ^^^ b) = m a ^^^ m b) (hx : ∀ a, m (xtime a) = xtime (m a))
    (n : Nat) (p a b : Byte) : m (clmulLoop n p a b) = clmulLoop n (m p) (m a) b := by
  induction n generalizing p a b with
  | zero => rfl
  | succ n ih =>
    rw [clmulLoop, clmulLoop, ih, hx]
    split
    · rw [hadd]
    · rfl

theorem clmulMod_zero_left (b : Byte) : clmulMod 0 b = 0 := by
  simpa using clmulMod_xor_left 0 0 b

theorem clmulMod_zero_right (a : Byte) : clmulMod a 0 = 0 := by
  simpa using clmulMod_xor_right a 0 0

theorem clmulMod_one_left : ∀ b : Byte, clmulMod 1 b = b := by decide +kernel

theorem clmulMod_xtime_left (a b : Byte) : clmulMod (xtime a) b = xtime (clmulMod a b) :=
  (clmulLoop_map xtime_xor (fun _ => rfl) 8 0 a b).symm

theorem clmulMod_right_comm (a b c : Byte) : clmulMod (clmulMod a b) c = clmulMod (clmulMod a c) b := by
  have h := clmulLoop_map (m := (clmulMod · c)) (clmulMod_xor_left · · c) (clmulMod_xtime_left · c) 8 0 a b
  rwa [clmulMod_zero_left] at h

theorem clmulMod_comm (a b : Byte) : clmulMod a b = clmulMod b a := by
  simpa only [clmulMod_one_left] using clmulMod_right_comm 1 a b

theorem clmulMod_assoc (a b c : Byte) : clmulMod (clmulMod a b) c = clmulMod a (clmulMod b c) := by
  rw [clmulMod_comm a b, clmulMod_right_comm, clmulMod_comm]

theorem clmulMod_one_right (a : Byte) : clmulMod a 1 = a := by
  rw [clmulMod_comm, clmulMod_one_left]

/-! ### Powers, and the order 255 of the nonzero bytes (R81) -/

theorem fieldPower_add (f : Byte) (m n : Nat) : fieldPower f (m + n) = clmulMod (fieldPower f m) (fieldPower f n) := by
  induction n with
  | zero => exact (clmulMod_one_right _).symm
  | succ n ih => rw [← Nat.add_assoc, fieldPower, fieldPower, ih, clmulMod_assoc]

theorem fieldPower_mul (f : Byte) (m n : Nat) : fieldPower f (m * n) = fieldPower (fieldPower f m) n := by
  induction n with
  | zero => rfl
  | succ n ih => rw [Nat.mul_succ, fieldPower_add, ih, fieldPower]

theorem fieldPower_one_base (n : Nat) : fieldPower 1 n = 1 := by
  induction n with
  | zero => rfl
  | succ n ih => rw [fieldPower, ih, clmulMod_one_left]

theorem fieldPower_mod {f : Byte} {k : Nat} (hk : fieldPower f k = 1) (n : Nat) : fieldPower f (n % k) = fieldPower f n := by
  conv_rhs => rw [← Nat.mod_add_div n k, fieldPower_add, fieldPower_mul, hk, fieldPower_one_base, clmulMod_one_right]

theorem fieldPower_gen_order : fieldPower Config.gen 255 = 1 := (expEntry_eq_fieldPower (by decide)).symm

/-- A nonzero byte is the power of the generator at its logarithm (R16). -/
theorem fieldPower_gen_logEntry {a : Byte} (ha : a ≠ 0) : fieldPower Config.gen (logEntry a) = a := by
  rw [← expEntry_eq_fieldPower (logEntry_lt a), expEntry_logEntry ha]

theorem expEntry_mod_order (n : Nat) : expEntry (n % 255) = fieldPower Config.gen n := by
  rw [expEntry_eq_fieldPower (Nat.lt_trans (Nat.mod_lt n (by decide)) (by decide)), fieldPower_mod fieldPower_gen_order]

theorem fieldPower_order {a : Byte} (ha : a ≠ 0) : fieldPower a 255 = 1 := by
  rw [← fieldPower_gen_logEntry ha, ← fieldPower_mul, Nat.mul_comm, fieldPower_mul, fieldPower_gen_order,
    fieldPower_one_base]

/-- Multiplication by b is undone by multiplication by b^254. -/
theorem clmulMod_eq_iff {b : Byte} (hb : b ≠ 0) (p a : Byte) : clmulMod p b = a ↔ p = fieldQuotient a b := by
  have hinv : clmulMod (fieldPower b 254) b = 1 := fieldPower_order hb
  constructor
  · rintro rfl
    rw [fieldQuotient, clmulMod_right_comm, clmulMod_assoc, hinv, clmulMod_one_right]
  · rintro rfl
    rw [fieldQuotient, clmulMod_assoc, hinv, clmulMod_one_right]

theorem clmulMod_fieldQuotient (a : Byte) {b : Byte} (hb : b ≠ 0) : clmulMod (fieldQuotient a b) b = a :=
  (clmulMod_eq_iff hb _ a).2 rfl

theorem fieldQuotient_self {a : Byte} (ha : a ≠ 0) : fieldQuotient a a = 1 :=
  ((clmulMod_eq_iff ha 1 a).1 (clmulMod_one_left a)).symm

/-! ### The table method computes the polynomial product and its quotient (R93) -/

theorem tableProduct_eq_clmulMod (a b : Byte) : tableProduct a b = clmulMod a b := by
  unfold tableProduct
  split
  · next h =>
    rcases h with rfl | rfl
    · exact (clmulMod_zero_left b).symm
    · exact (clmulMod_zero_right a).symm
  · next h =>
    obtain ⟨ha, hb⟩ := not_or.1 h
    rw [expEntry_mod_order, fieldPower_add, fieldPower_gen_logEntry ha, fieldPower_gen_logEntry hb]

theorem tableQuotient_eq_fieldQuotient (a : Byte) {b : Byte} (hb : b ≠ 0) : tableQuotient a b = fieldQuotient a b := by
  unfold tableQuotient
  split
  · next h => rw [h, fieldQuotient, clmulMod_zero_left]
  · next ha =>
    rw [← clmulMod_eq_iff hb, expEntry_mod_order]
    have hle : logEntry b ≤ 255 + logEntry a := Nat.le_add_right_of_le (Nat.le_of_lt (logEntry_lt_order b))
    calc clmulMod (fieldPower Config.gen (255 + logEntry a - logEntry b)) b
        = fieldPower Config.gen (255 + logEntry a - logEntry b + logEntry b) := by
          rw [fieldPower_add, fieldPower_gen_logEntry hb]
      _ = a := by
          rw [Nat.sub_add_cancel hle, fieldPower_add, fieldPower_gen_order, clmulMod_one_left,
            fieldPower_gen_logEntry ha]

theorem tablePower_eq_fieldPower (f : Byte) (e : Nat) : tablePower f e = fieldPower f e := by
  induction e with
  | zero => rfl
  | succ e ih => rw [tablePower, tableProduct_eq_clmulMod, ih, fieldPower]

theorem feMul_value {t : TableStore} (ht : t.Inv) (a b : Byte) : (feMul t a b).value? = some (clmulMod a b) := by
  rw [feMul_of_built (ensureTables_built ht), tableProduct_eq_clmulMod, Res.value?]

theorem feDiv_value {t : TableStore} (ht : t.Inv) (a : Byte) {b : Byte} (hb : b ≠ 0) :
    (feDiv t a b).value? = some (fieldQuotient a b) := by
  rw [feDiv_of_built (ensureTables_built ht), if_neg hb, tableQuotient_eq_fieldQuotient a hb, Res.value?]

/-- Settles O8: the product through the tables is a sum of logarithms, and b^254 undoes a multiplication by b. -/
theorem tableMethodIsPolynomialProduct : Obligations.TableMethodIsPolynomialProduct := by
  intro t a b ht
  refine ⟨feMul_value ht a b, fun hb => ⟨fieldQuotient a b, feDiv_value ht a hb, fun p => ?_⟩⟩
  rw [feMul_value ht, Option.some_inj, clmulMod_eq_iff hb]

/-- Settles O9: each law is one of the polynomial product, which the table method computes. -/
theorem fieldLawsOfTheUnit : Obligations.FieldLawsOfTheUnit := by
  intro t a b c ht
  have hmul := feMul_value ht
  have hdiv {x y : Byte} (hy : y ≠ 0) := feDiv_value ht x hy
  refine ⟨BitVec.xor_zero, BitVec.xor_self, rfl, ?zeroRight, ?zeroLeft, ?one, fun ha => ?self, ?assoc, ?comm, ?distrib,
    fun hb => ?undo, rfl⟩
  case zeroRight => simp only [hmul, clmulMod_zero_right]
  case zeroLeft => simp only [hmul, clmulMod_zero_left]
  case one => simp only [hmul, clmulMod_one_right]
  case self => simp only [hdiv ha, fieldQuotient_self ha]
  case assoc => simp only [hmul, Option.bind_some, clmulMod_assoc]
  case comm => simp only [hmul, clmulMod_comm a b]
  case distrib => simp only [hmul, feAdd, clmulMod_xor_right, Option.bind_some, Option.map_some]
  case undo => simp only [hdiv hb, hmul, Option.bind_some, clmulMod_fieldQuotient a hb]

/-! ### The answers of the five commands (R86 to R90) -/

/-- Settles O1: FADD ends with the exclusive-or and the tables it found. -/
theorem faddAnswersXor : Obligations.FaddAnswersXor := fun _ _ _ => rfl

/-- Settles O2: FSUB ends as FADD does. -/
theorem fsubAnswersXor : Obligations.FsubAnswersXor := fun _ _ _ => rfl

theorem exec_fmul {s : State} (hs : s.Inv) (a b : Byte) : exec (.fmul a b) s =
    .next (s.answered (if a = 0 ∨ b = 0 then s.tbl else ensureTables s.tbl) [0x00, tableProduct a b]) := by
  rw [exec, execFmul, feMul_of_built (ensureTables_built hs.1)]
  rfl

/-- Settles O3: with no zero operand the printed product is the entry at the sum of the logarithms. -/
theorem fmulAnswersTableProduct : Obligations.FmulAnswersTableProduct := by
  intro a b s hs
  rw [exec_fmul hs, tableProduct]
  split <;> rfl

theorem exec_fdiv_zero (a : Byte) (s : State) : exec (.fdiv a 0) s = .next (s.answered s.tbl [0x07]) := rfl

theorem exec_fdiv {s : State} (hs : s.Inv) (a : Byte) {b : Byte} (hb : b ≠ 0) : exec (.fdiv a b) s =
    .next (s.answered (if a = 0 then s.tbl else ensureTables s.tbl) [0x00, tableQuotient a b]) := by
  rw [exec, execFdiv, feDiv_of_built (ensureTables_built hs.1), if_neg hb]
  rfl

/-- Settles O4: the divisor is tested first; with no zero operand the printed quotient is the entry at the difference of the
logarithms. -/
theorem fdivAnswersTableQuotient : Obligations.FdivAnswersTableQuotient := by
  intro a b s hs
  by_cases hb : b = 0
  · rw [hb, exec_fdiv_zero, if_pos rfl]
  · rw [exec_fdiv hs a hb, if_neg hb, tableQuotient]
    split <;> rfl

theorem tablePower_ne_zero {f : Byte} (hf : f ≠ 0) (n : Nat) : tablePower f n ≠ 0 := by
  rw [tablePower_eq_fieldPower, ← fieldPower_gen_logEntry hf, ← fieldPower_mul, ← expEntry_mod_order]
  exact expEntry_ne_zero (Nat.lt_trans (Nat.mod_lt _ (by decide)) (by decide))

theorem tablePower_zero_base {e : Nat} (he : e ≠ 0) : tablePower 0 e = 0 := by
  cases e with
  | zero => exact (he rfl).elim
  | succ e => simp [tablePower, tableProduct]

/-- The loop of FPOW after `n` of its multiplications. For f not 0 no product is 0, so the first one ensures the tables. -/
theorem fePowLoop_of_built (f : Byte) (e n : Nat) {t : TableStore} (hb : (ensureTables t).Built) :
    fePowLoop f e (tablePower f n) t =
      .ok (tablePower f (n + e)) (if f = 0 ∨ e = 0 then t else ensureTables t) := by
  induction e generalizing n t with
  | zero => simp [fePowLoop]
  | succ e ih =>
    rw [fePowLoop, feMul_of_built hb, Res.bind_ok, ← tablePower]
    by_cases hf : f = 0
    · simp only [hf, or_true, true_or, if_true] at ih ⊢
      rw [ih (n + 1) hb, Nat.add_right_comm, Nat.add_assoc]
    · have hb' : (ensureTables (ensureTables t)).Built := by rwa [ensureTables_idem]
      simp only [hf, tablePower_ne_zero hf, false_or, if_false, Nat.succ_ne_zero] at ih ⊢
      rw [ih (n + 1) hb', ensureTables_idem, ite_self, Nat.add_right_comm, Nat.add_assoc]

theorem fePow_of_built (f : Byte) (e : Nat) {t : TableStore} (hb : (ensureTables t).Built) :
    fePow t f e = .ok (tablePower f e) (if f = 0 ∨ e = 0 then t else ensureTables t) := by
  have h := fePowLoop_of_built f e 0 hb
  rwa [Nat.zero_add] at h

/-- Settles O5: the loop's value is the printed power. -/
theorem fpowAnswersRepeatedProduct : Obligations.FpowAnswersRepeatedProduct := by
  intro f e s hs
  have hzero : e.toNat = 0 ↔ e = 0 := ⟨fun h => BitVec.eq_of_toNat_eq h, fun h => h ▸ rfl⟩
  simp only [exec, execFpow, fePow_of_built f e.toNat (ensureTables_built hs.1), hzero]
  rfl

/-- Settles O6: the corner cases of the printed power; f^254 is the quotient 1/f. -/
theorem fpowCornerExponents : Obligations.FpowCornerExponents := by
  intro f e s hs
  have hpow := fpowAnswersRepeatedProduct
  refine ⟨?_, fun he => ?_, fun hf => ?_, fun hf => ?_⟩
  · rw [hpow f 0 s hs, if_pos (.inr rfl)]
    rfl
  · have he' : e.toNat ≠ 0 := fun h => he (BitVec.eq_of_toNat_eq h)
    rw [hpow 0 e s hs, if_pos (.inl rfl), tablePower_zero_base he']
  · rw [hpow f 255 s hs, tablePower_eq_fieldPower, show (255 : Byte).toNat = 255 from rfl, fieldPower_order hf,
      if_neg (not_or.2 ⟨hf, by decide⟩)]
  · rw [hpow f 254 s hs, exec_fdiv hs 1 hf, tablePower_eq_fieldPower, tableQuotient_eq_fieldQuotient 1 hf, fieldQuotient,
      clmulMod_one_left, if_neg (not_or.2 ⟨hf, by decide⟩), if_neg (by decide)]
    rfl

/-! ### The generator's order and that of 0x02 (R81) -/

theorem fieldPower_gen_eq_iff (m n : Nat) : fieldPower Config.gen m = fieldPower Config.gen n ↔ m % 255 = n % 255 := by
  rw [← fieldPower_mod fieldPower_gen_order m, ← fieldPower_mod fieldPower_gen_order n]
  exact ⟨fieldPower_gen_injective (Nat.mod_lt m (by decide)) (Nat.mod_lt n (by decide)), congrArg _⟩

/-- 0x02 is the generator's power 25, so that its own powers repeat with period 255 / gcd(25, 255) = 51. -/
theorem fieldPower_two_eq_iff (m n : Nat) : fieldPower 0x02 m = fieldPower 0x02 n ↔ m % 51 = n % 51 := by
  have htwo : fieldPower Config.gen 25 = 0x02 := by decide
  rw [← htwo, ← fieldPower_mul, ← fieldPower_mul, fieldPower_gen_eq_iff]
  omega

theorem toFinset_powers_of_two :
    ((List.range 255).map (fieldPower 0x02)).toFinset = (Finset.range 51).image (fieldPower 0x02) := by
  ext v
  simp only [List.mem_toFinset, List.mem_map, List.mem_range, Finset.mem_image, Finset.mem_range]
  constructor
  · rintro ⟨i, -, rfl⟩
    exact ⟨i % 51, Nat.mod_lt i (by decide), (fieldPower_two_eq_iff _ _).2 (Nat.mod_mod i 51)⟩
  · rintro ⟨i, hi, rfl⟩
    exact ⟨i, by omega, rfl⟩

theorem injOn_fieldPower_two : Set.InjOn (fieldPower 0x02) (Finset.range 51) := by
  intro i hi j hj h
  have hmod := (fieldPower_two_eq_iff i j).1 h
  rwa [Nat.mod_eq_of_lt (Finset.mem_range.1 hi), Nat.mod_eq_of_lt (Finset.mem_range.1 hj)] at hmod

/-- Settles O10: the powers of 0x03 are those of the printed tables, and 0x02 is its power 25. -/
theorem generatorIsPrimitive : Obligations.GeneratorIsPrimitive := by
  refine ⟨rfl, ?_, fun i hi => fieldPower_gen_ne_zero (Nat.lt_succ_of_lt hi), fieldPower_gen_order,
    (fieldPower_two_eq_iff 51 0).2 rfl, ?_⟩
  · exact List.nodup_range.map_on fun i hi j hj h =>
      fieldPower_gen_injective (List.mem_range.1 hi) (List.mem_range.1 hj) h
  · rw [← List.card_toFinset, toFinset_powers_of_two, Finset.card_image_of_injOn injOn_fieldPower_two, Finset.card_range]

/-! ### The build and the lookups (R82 to R84) -/

/-- Settles O11: the contents by the loop's invariant, LOG[0] because no power of the generator is 0. -/
theorem buildFillsTheTables : Obligations.BuildFillsTheTables := fun t ht =>
  ⟨buildTables_built t, buildTables_ready t, buildTables_log_read_zero t, buildTables_wf ht⟩

/-- Settles O13: the ensured tables are the built ones, where a lookup reads what R83 prints. -/
theorem lookupBuildsThenReads : Obligations.LookupBuildsThenReads := fun _ _ _ ht =>
  have hb := ensureTables_built ht
  ⟨rfl, lookupLog_of_built hb, fun hi => lookupExp_of_built hb (by omega)⟩

end Sys2Proof.Machine

/-! PROOFS. The slow multiply is the product of polynomials over GF(2) modulo the reduction polynomial (O7). -/

namespace Sys2Proof.Machine

open Polynomial

/-! ### A byte as a polynomial, and the rounds of `clmul_mod` on it (R80, R91)

The rounds of R91 are followed in any commutative ring to which the polynomials over GF(2) are mapped and where the reduction
polynomial becomes 0; the quotient by it is one. -/

/-- Bit i of a byte as a term of its polynomial (R80). -/
noncomputable def bitTerm (c : Byte) (i : Nat) : (ZMod 2)[X] := if c.getLsbD i then X ^ i else 0

/-- The polynomial of the lowest `n` bits of a byte (R80). -/
noncomputable def bytePoly (n : Nat) (c : Byte) : (ZMod 2)[X] := ∑ i ∈ Finset.range n, bitTerm c i

/-- x^8 + x^4 + x^3 + x + 1 (R6, R80). -/
noncomputable def reductionPoly : (ZMod 2)[X] := X ^ 8 + X ^ 4 + X ^ 3 + X + 1

theorem bitTerm_xor (a b : Byte) (i : Nat) : bitTerm (a ^^^ b) i = bitTerm a i + bitTerm b i := by
  unfold bitTerm
  rw [BitVec.getLsbD_xor]
  cases a.getLsbD i <;> cases b.getLsbD i <;> simp [CharTwo.add_self_eq_zero]

theorem bytePoly_xor (n : Nat) (a b : Byte) : bytePoly n (a ^^^ b) = bytePoly n a + bytePoly n b := by
  simp only [bytePoly, bitTerm_xor, Finset.sum_add_distrib]

theorem bytePoly_zero (n : Nat) : bytePoly n 0 = 0 := by simp [bytePoly, bitTerm]

theorem bitTerm_shiftRight (b : Byte) (i : Nat) : bitTerm b (i + 1) = X * bitTerm (b >>> 1) i := by
  rw [bitTerm, bitTerm, BitVec.getLsbD_ushiftRight, mul_ite, mul_zero, pow_succ', add_comm]

theorem bytePoly_succ (n : Nat) (b : Byte) : bytePoly (n + 1) b = bitTerm b 0 + X * bytePoly n (b >>> 1) := by
  simp only [bytePoly, Finset.sum_range_succ', bitTerm_shiftRight, Finset.mul_sum, add_comm]

/-- A shift to the left multiplies by x, but for bit 7, which falls out. -/
theorem X_mul_bytePoly (a : Byte) : X * bytePoly 8 a = bytePoly 8 (a <<< 1) + X * bitTerm a 7 := by
  have hlow : bitTerm (a <<< 1) 0 = 0 := by simp [bitTerm]
  have hshift : ∀ i ∈ Finset.range 7, bitTerm (a <<< 1) (i + 1) = X * bitTerm a i := by
    intro i hi
    have : i + 1 < 8 := Nat.succ_lt_succ (Finset.mem_range.1 hi)
    simp [bitTerm, pow_succ', BitVec.getLsbD_shiftLeft, this, -BitVec.getLsbD_eq_getElem]
  rw [bytePoly, Finset.sum_range_succ, mul_add, Finset.mul_sum, bytePoly, Finset.sum_range_succ' _ 7, hlow, add_zero,
    Finset.sum_congr rfl hshift]

theorem bytePoly_polyLow : bytePoly 8 Config.polyLow = X ^ 4 + X ^ 3 + X + 1 := by
  have hlow : Config.polyLow = 0x1B#8 := rfl
  have hterms : bytePoly 8 Config.polyLow = 1 + X + X ^ 3 + X ^ 4 := by
    simp [bytePoly, bitTerm, Finset.sum_range_succ, hlow]
  rw [hterms]
  ring

section
variable {R : Type} [CommRing R] {φ : (ZMod 2)[X] →+* R} (hφ : φ reductionPoly = 0)
include hφ

/-- Shift, and reduce when bit 7 falls out: multiplication by x modulo the reduction polynomial. -/
theorem map_bytePoly_xtime (a : Byte) : φ (bytePoly 8 (xtime a)) = φ X * φ (bytePoly 8 a) := by
  rw [← map_mul, X_mul_bytePoly, xtime, bitTerm]
  split
  · have hlow : bytePoly 8 Config.polyLow = reductionPoly + X * X ^ 7 := by
      rw [← CharTwo.sub_eq_add, eq_sub_iff_add_eq, bytePoly_polyLow, reductionPoly]
      ring
    rw [bytePoly_xor, hlow, map_add, map_add, map_add, hφ, zero_add]
  · rw [mul_zero, add_zero]

/-- The loop of R91 adds the product of `a` and the lowest `n` bits of `b` to its running product. -/
theorem map_bytePoly_clmulLoop (n : Nat) (p a b : Byte) :
    φ (bytePoly 8 (clmulLoop n p a b)) = φ (bytePoly 8 p) + φ (bytePoly 8 a) * φ (bytePoly n b) := by
  induction n generalizing p a b with
  | zero => simp [clmulLoop, bytePoly]
  | succ n ih =>
    have hround : bytePoly 8 (if b.getLsbD 0 then p ^^^ a else p) = bytePoly 8 p + bytePoly 8 a * bitTerm b 0 := by
      unfold bitTerm
      split
      · rw [bytePoly_xor, pow_zero, mul_one]
      · rw [mul_zero, add_zero]
    rw [clmulLoop, ih, hround, map_bytePoly_xtime hφ, bytePoly_succ n b, map_add, map_add, map_mul, map_mul]
    ring

end

/-- Settles O7: in the quotient by the reduction polynomial the byte of `clmul_mod` is the product of the two bytes. -/
theorem clmulIsPolynomialProduct : Obligations.ClmulIsPolynomialProduct := by
  intro a b
  have h : AdjoinRoot.mk reductionPoly (bytePoly 8 (clmulMod a b)) =
      AdjoinRoot.mk reductionPoly (bytePoly 8 a * bytePoly 8 b) := by
    rw [clmulMod, map_bytePoly_clmulLoop AdjoinRoot.mk_self, bytePoly_zero, map_zero, zero_add, map_mul]
  obtain ⟨q, hq⟩ := AdjoinRoot.mk_eq_mk.1 h.symm
  exact ⟨q, by rw [mul_comm q]; exact eq_add_of_sub_eq' hq⟩

end Sys2Proof.Machine

/-! PROOFS. The bytes embedded in a field, where the Lagrange sum is Mathlib's interpolation polynomial at the target (R80,
R112). -/

namespace Sys2Proof.Machine

open Polynomial

/-! ### Bytes as elements of a field (R80)

A root of the reduction polynomial in the algebraic closure of GF(2) takes the place of x. The map is one to one because every
byte but 0 has an inverse. -/

theorem exists_root_reductionPoly : ∃ r : AlgebraicClosure (ZMod 2), aeval r reductionPoly = 0 := by
  have hdeg : reductionPoly.degree = 8 := by
    unfold reductionPoly
    compute_degree!
  exact IsAlgClosed.exists_aeval_eq_zero _ reductionPoly (by rw [hdeg]; decide)

/-- The element of a byte: its polynomial at a root of the reduction polynomial. -/
noncomputable def fieldElem (b : Byte) : AlgebraicClosure (ZMod 2) :=
  aeval exists_root_reductionPoly.choose (bytePoly 8 b)

theorem fieldElem_zero : fieldElem 0 = 0 := by rw [fieldElem, bytePoly_zero, map_zero]

theorem fieldElem_xor (a b : Byte) : fieldElem (a ^^^ b) = fieldElem a + fieldElem b := by
  simp only [fieldElem, bytePoly_xor, map_add]

theorem fieldElem_xor_eq_sub (a b : Byte) : fieldElem (a ^^^ b) = fieldElem a - fieldElem b := by
  rw [fieldElem_xor, CharTwo.sub_eq_add]

theorem fieldElem_clmulMod (a b : Byte) : fieldElem (clmulMod a b) = fieldElem a * fieldElem b := by
  have h := map_bytePoly_clmulLoop (φ := (aeval exists_root_reductionPoly.choose).toRingHom)
    exists_root_reductionPoly.choose_spec 8 0 a b
  rw [bytePoly_zero, map_zero, zero_add] at h
  exact h

theorem fieldElem_one : fieldElem 1 = 1 := by
  have h : bytePoly 8 1 = 1 := by simp [bytePoly, bitTerm]
  rw [fieldElem, h, map_one]

theorem fieldElem_fieldPower (b : Byte) (n : Nat) : fieldElem (fieldPower b n) = fieldElem b ^ n := by
  induction n with
  | zero => rw [fieldPower, fieldElem_one, pow_zero]
  | succ n ih => rw [fieldPower, fieldElem_clmulMod, ih, pow_succ]

theorem fieldElem_ne_zero {b : Byte} (hb : b ≠ 0) : fieldElem b ≠ 0 := fun h => by
  have hone := fieldElem_fieldPower b 255
  rw [fieldPower_order hb, fieldElem_one, h, zero_pow (by decide)] at hone
  exact one_ne_zero hone

theorem fieldElem_injective : Function.Injective fieldElem := fun a b h => by
  by_contra hab
  refine fieldElem_ne_zero (feSub_ne_zero hab) ?_
  rw [feSub, fieldElem_xor_eq_sub, h, sub_self]

theorem fieldElem_fieldQuotient (a b : Byte) : fieldElem (fieldQuotient a b) = fieldElem a / fieldElem b := by
  rw [fieldQuotient, fieldElem_clmulMod, fieldElem_fieldPower]
  by_cases hb : b = 0
  · rw [hb, fieldElem_zero, zero_pow (by decide), mul_zero, div_zero]
  · have hinv : fieldElem b ^ 254 * fieldElem b = 1 := by
      rw [← pow_succ, ← fieldElem_fieldPower, fieldPower_order hb, fieldElem_one]
    rw [eq_inv_of_mul_eq_one_left hinv, div_eq_mul_inv]

theorem fieldElem_foldl_clmulMod (factors : List Byte) (acc : Byte) :
    fieldElem (factors.foldl clmulMod acc) = fieldElem acc * (factors.map fieldElem).prod := by
  induction factors generalizing acc with
  | nil => exact (mul_one _).symm
  | cons f factors ih => rw [List.foldl_cons, ih, fieldElem_clmulMod, List.map_cons, List.prod_cons, mul_assoc]

theorem fieldElem_foldl_xor (terms : List Byte) (acc : Byte) :
    fieldElem (terms.foldl (· ^^^ ·) acc) = fieldElem acc + (terms.map fieldElem).sum := by
  induction terms generalizing acc with
  | nil => exact (add_zero _).symm
  | cons f terms ih => rw [List.foldl_cons, ih, fieldElem_xor, List.map_cons, List.sum_cons, add_assoc]

/-! ### Points with different x: their positions can be left out of the Lagrange sum (R111) -/

theorem DistinctX.nodup {points : List Point} (hd : DistinctX points) : points.Nodup := List.Nodup.of_map _ hd

theorem DistinctX.injOn_x {points : List Point} (hd : DistinctX points) :
    Set.InjOn (fun p => fieldElem p.x) (points.toFinset : Set Point) := by
  intro p hp q hq h
  simp only [List.coe_toFinset, Set.mem_ofPred_eq] at hp hq
  exact List.inj_on_of_nodup_map hd hp hq (fieldElem_injective h)

/-- In a list without repetitions the positions other than that of `p` hold the members other than `p`. -/
theorem filter_zipIdx_ne {points : List Point} (hn : points.Nodup) {i : Nat} {p : Point} (hp : points[i]? = some p) :
    (points.zipIdx.filter fun c => c.2 ≠ i).map Prod.fst = points.filter (· ≠ p) := by
  have hcongr : points.zipIdx.filter (fun c => c.2 ≠ i) = points.zipIdx.filter ((· ≠ p) ∘ Prod.fst) := by
    refine List.filter_congr fun c hc => ?_
    have hq : points[c.2]? = some c.1 := List.mem_zipIdx_iff_getElem?.1 hc
    obtain ⟨hi, -⟩ := List.getElem?_eq_some_iff.1 hp
    have hiff : i = c.2 ↔ p = c.1 := by
      rw [← List.getElem?_inj hi hn, hp, hq, Option.some_inj]
    simp [eq_comm, hiff]
  rw [hcongr, ← List.filter_map, List.zipIdx_map_fst]

/-- The basis product is the basis polynomial's value at the target. -/
theorem fieldElem_basisAt {points : List Point} (hn : points.Nodup) {i : Nat} {p : Point} (hp : points[i]? = some p)
    (x : Byte) : fieldElem (basisAt x points i p.x) =
      (Lagrange.basis points.toFinset (fun q => fieldElem q.x) p).eval (fieldElem x) := by
  have hfactor (q : Point) : (Lagrange.basisDivisor (fieldElem p.x) (fieldElem q.x)).eval (fieldElem x) =
      fieldElem (fieldQuotient (x ^^^ q.x) (p.x ^^^ q.x)) := by
    rw [fieldElem_fieldQuotient, fieldElem_xor_eq_sub, fieldElem_xor_eq_sub, Lagrange.basisDivisor, eval_mul, eval_C,
      eval_sub, eval_X, eval_C, inv_mul_eq_div]
  have hothers : points.toFinset.erase p = (points.filter (· ≠ p)).toFinset := by
    rw [List.toFinset_filter, ← Finset.filter_ne']
    simp
  rw [Lagrange.basis, eval_prod, hothers, List.prod_toFinset _ (hn.filter _), ← filter_zipIdx_ne hn hp, basisAt,
    fieldElem_foldl_clmulMod, fieldElem_one, one_mul, List.map_map, List.map_map]
  simp only [Function.comp_def, hfactor]

/-- The Lagrange sum is the interpolation polynomial's value at the target. -/
theorem fieldElem_lagrangeAt {points : List Point} (hn : points.Nodup) (x : Byte) : fieldElem (lagrangeAt x points) =
    (Lagrange.interpolate points.toFinset (fun p => fieldElem p.x) fun p => fieldElem p.y).eval (fieldElem x) := by
  have hindexed {β : Type} (g : Point → β) : points.map g = points.zipIdx.map fun c => g c.1 := by
    rw [← Function.comp_def g Prod.fst, ← List.map_map, List.zipIdx_map_fst]
  rw [Lagrange.interpolate_apply, eval_finsetSum, List.sum_toFinset _ hn, lagrangeAt, fieldElem_foldl_xor, fieldElem_zero,
    zero_add, List.map_map, hindexed]
  refine congrArg List.sum (List.map_congr_left fun c hc => ?_)
  rw [Function.comp_apply, fieldElem_clmulMod, fieldElem_basisAt hn (List.mem_zipIdx_iff_getElem?.1 hc), eval_mul, eval_C,
    mul_comm]

/-! ### What the interpolation polynomial gives (R112) -/

theorem lagrangeAt_perm {points points' : List Point} (hd : DistinctX points) (h : points.Perm points') (x : Byte) :
    lagrangeAt x points = lagrangeAt x points' :=
  fieldElem_injective (by
    rw [fieldElem_lagrangeAt hd.nodup, fieldElem_lagrangeAt (h.nodup hd.nodup), List.toFinset_eq_of_perm _ _ h])

theorem lagrangeAt_of_mem {points : List Point} (hd : DistinctX points) {p : Point} (hp : p ∈ points) :
    lagrangeAt p.x points = p.y :=
  fieldElem_injective (by
    rw [fieldElem_lagrangeAt hd.nodup]
    exact Lagrange.eval_interpolate_at_node _ hd.injOn_x (List.mem_toFinset.2 hp))

theorem lagrangeAt_singleton (x : Byte) (p : Point) : lagrangeAt x [p] = p.y := by
  simpa [lagrangeAt, basisAt] using clmulMod_one_left p.y

/-- The polynomial with the coefficients `c`, the constant one first. -/
noncomputable def coefficientPoly (c : List Byte) : (AlgebraicClosure (ZMod 2))[X] :=
  c.foldr (fun a rest => C (fieldElem a) + X * rest) 0

theorem eval_coefficientPoly (c : List Byte) (x : Byte) :
    (coefficientPoly c).eval (fieldElem x) = fieldElem (polynomialAt c x) := by
  induction c with
  | nil => exact eval_zero.trans fieldElem_zero.symm
  | cons a c ih =>
    simp only [coefficientPoly, polynomialAt, List.foldr_cons] at ih ⊢
    rw [eval_add, eval_C, eval_mul, eval_X, ih, fieldElem_xor, fieldElem_clmulMod]

theorem degree_coefficientPoly_lt (c : List Byte) : (coefficientPoly c).degree < c.length := by
  rw [degree_lt_iff_coeff_zero]
  induction c with
  | nil => exact fun m _ => coeff_zero m
  | cons a c ih =>
    intro m hm
    obtain ⟨m, rfl⟩ : ∃ n, m = n + 1 := ⟨m - 1, by rw [List.length_cons] at hm; omega⟩
    rw [coefficientPoly, List.foldr_cons, coeff_add, coeff_C_succ, coeff_X_mul, zero_add]
    exact ih m (Nat.le_of_succ_le_succ hm)

/-- A polynomial with no more coefficients than there are points is their interpolation polynomial. -/
theorem lagrangeAt_of_polynomial {points : List Point} (hd : DistinctX points) {c : List Byte}
    (hlen : c.length ≤ points.length) (hy : ∀ p ∈ points, p.y = polynomialAt c p.x) (x : Byte) :
    lagrangeAt x points = polynomialAt c x := by
  refine fieldElem_injective ?_
  have hcard : points.toFinset.card = points.length := List.toFinset_card_of_nodup hd.nodup
  have hdeg : (coefficientPoly c).degree < points.toFinset.card :=
    (degree_coefficientPoly_lt c).trans_le (by rw [hcard]; exact_mod_cast hlen)
  rw [fieldElem_lagrangeAt hd.nodup, ← eval_coefficientPoly]
  refine congrArg _ (Lagrange.eq_interpolate_of_eval_eq _ hd.injOn_x hdeg fun p hp => ?_).symm
  rw [eval_coefficientPoly, hy p (List.mem_toFinset.1 hp)]

end Sys2Proof.Machine

/-! PROOFS. What INTERP and RECPT answer (O29, O30, O31, O32, O33, O34). -/

namespace Sys2Proof.Machine

/-! ### Interpolation that ends in a value had points with different x, and the value is the Lagrange sum (R111, R113) -/

theorem feMul_eq_ok {t u : TableStore} (ht : t.Inv) {a b v : Byte} (h : feMul t a b = .ok v u) :
    u.Inv ∧ v = clmulMod a b := by
  have hv := feMul_value ht a b
  rw [h, Res.value?, Option.some_inj] at hv
  exact ⟨((feMul_within t a b NoKind).reach_of_ok h).inv ht, hv⟩

theorem feDiv_eq_ok {t u : TableStore} (ht : t.Inv) {a b v : Byte} (h : feDiv t a b = .ok v u) :
    u.Inv ∧ b ≠ 0 ∧ v = fieldQuotient a b := by
  have hb : b ≠ 0 := by
    rintro rfl
    cases h
  have hv := feDiv_value ht a hb
  rw [h, Res.value?, Option.some_inj] at hv
  exact ⟨((feDiv_within t a b).reach_of_ok h).inv ht, hb, hv⟩

/-- What the inner loop comes to from position `j` on: `basis` times the factors left; `basisAt` is this from 0 and 1. -/
def basisFrom (x : Byte) (i : Nat) (xi : Byte) (j : Nat) (ps : List Point) (basis : Byte) : Byte :=
  (((ps.zipIdx j).filter fun c => c.2 ≠ i).map fun c => fieldQuotient (x ^^^ c.1.x) (xi ^^^ c.1.x)).foldl clmulMod basis

theorem basisFrom_cons (x : Byte) (i : Nat) (xi : Byte) (j : Nat) (p : Point) (ps : List Point) (basis : Byte) :
    basisFrom x i xi j (p :: ps) basis = basisFrom x i xi (j + 1) ps
      (if j = i then basis else clmulMod basis (fieldQuotient (x ^^^ p.x) (xi ^^^ p.x))) := by
  by_cases h : j = i <;> simp [basisFrom, h]

theorem basisLoop_eq_ok {x : Byte} {i : Nat} {xi : Byte} {j : Nat} {ps : List Point} {basis v : Byte} {t u : TableStore}
    (ht : t.Inv) (h : basisLoop x i xi j ps basis t = .ok v u) :
    (∀ c ∈ ps.zipIdx j, c.2 ≠ i → xi ≠ c.1.x) ∧ v = basisFrom x i xi j ps basis := by
  induction ps generalizing j basis t with
  | nil =>
    cases h
    exact ⟨List.forall_mem_nil _, rfl⟩
  | cons p ps ih =>
    rw [List.zipIdx_cons, List.forall_mem_cons, basisFrom_cons]
    unfold basisLoop at h
    split at h
    · next hj =>
      obtain ⟨hne, hv⟩ := ih ht h
      exact ⟨⟨fun hji => (hji hj).elim, hne⟩, by rw [if_pos hj, hv]⟩
    · next hj =>
      obtain ⟨q, w, hdiv, h⟩ := Res.bind_eq_ok h
      obtain ⟨b, z, hmul, h⟩ := Res.bind_eq_ok h
      obtain ⟨hw, hden, rfl⟩ := feDiv_eq_ok ht hdiv
      obtain ⟨hz, rfl⟩ := feMul_eq_ok hw hmul
      obtain ⟨hne, hv⟩ := ih hz h
      exact ⟨⟨fun _ hx => hden (BitVec.xor_eq_zero_iff.2 hx), hne⟩, by rw [if_neg hj, hv]; rfl⟩

/-- What the outer loop comes to from position `i` on: `sum` plus the terms left; `lagrangeAt` is this from 0 and 0. -/
def lagrangeFrom (x : Byte) (points : List Point) (i : Nat) (ps : List Point) (sum : Byte) : Byte :=
  ((ps.zipIdx i).map fun c => clmulMod (basisAt x points c.2 c.1.x) c.1.y).foldl (· ^^^ ·) sum

theorem lagrangeFrom_cons (x : Byte) (points : List Point) (i : Nat) (p : Point) (ps : List Point) (sum : Byte) :
    lagrangeFrom x points i (p :: ps) sum =
      lagrangeFrom x points (i + 1) ps (sum ^^^ clmulMod (basisAt x points i p.x) p.y) := rfl

theorem sumLoop_eq_ok {x : Byte} {points : List Point} {i : Nat} {ps : List Point} {sum v : Byte} {t u : TableStore}
    (ht : t.Inv) (h : sumLoop x points i ps sum t = .ok v u) :
    (∀ c ∈ ps.zipIdx i, ∀ d ∈ points.zipIdx, d.2 ≠ c.2 → c.1.x ≠ d.1.x) ∧ v = lagrangeFrom x points i ps sum := by
  induction ps generalizing i sum t with
  | nil =>
    cases h
    exact ⟨List.forall_mem_nil _, rfl⟩
  | cons p ps ih =>
    rw [List.zipIdx_cons, List.forall_mem_cons, lagrangeFrom_cons]
    obtain ⟨basis, w, hbasis, h⟩ := Res.bind_eq_ok h
    obtain ⟨term, z, hmul, h⟩ := Res.bind_eq_ok h
    obtain ⟨hhead, rfl⟩ := basisLoop_eq_ok ht hbasis
    obtain ⟨hz, rfl⟩ := feMul_eq_ok (((basisLoop_within _ _ _ _ _ _ _).reach_of_ok hbasis).inv ht) hmul
    obtain ⟨htail, hv⟩ := ih hz h
    exact ⟨⟨hhead, htail⟩, hv⟩

theorem distinctX_of_ne {points : List Point}
    (h : ∀ c ∈ points.zipIdx, ∀ d ∈ points.zipIdx, d.2 ≠ c.2 → c.1.x ≠ d.1.x) : DistinctX points := by
  refine List.nodup_iff_pairwise_ne.2 (List.pairwise_map.2 (List.pairwise_iff_getElem.2 fun i j hi hj hij => ?_))
  exact h (points[i], i) (List.mem_zipIdx_iff_getElem?.2 (List.getElem?_eq_getElem hi)) (points[j], j)
    (List.mem_zipIdx_iff_getElem?.2 (List.getElem?_eq_getElem hj)) hij.ne'

theorem interpolate_eq_ok {t u : TableStore} (ht : t.Inv) {x v : Byte} {points : List Point}
    (h : interpolate t x points = .ok v u) : DistinctX points ∧ v = lagrangeAt x points := by
  unfold interpolate at h
  split at h
  · cases h
  · obtain ⟨hne, hv⟩ := sumLoop_eq_ok ht h
    exact ⟨distinctX_of_ne hne, hv⟩

/-! ### The outcome of `interpolate`: with two points of the same x, and with different x (R113, R112) -/

theorem interpolate_of_not_distinct {t : TableStore} (ht : t.Inv) (x : Byte) {points : List Point}
    (hd : ¬ DistinctX points) : ∃ u, Reach t u ∧ interpolate t x points = .raise .divisionByZero u := by
  have hne : points ≠ [] := by
    rintro rfl
    exact hd List.nodup_nil
  rcases Res.eq_of_noFault (interpolate_noFault (ensureTables_built ht) x points) with ⟨v, u, h⟩ | ⟨k, u, h⟩
  · exact (hd (interpolate_eq_ok ht h).1).elim
  · have hw := sumLoop_within x points 0 points 0 t
    rw [interpolate, if_neg hne] at h ⊢
    rw [h] at hw ⊢
    obtain ⟨rfl, hu⟩ := hw
    exact ⟨u, hu, rfl⟩

/-- A single point needs one multiplication, by 1 (R112 (a)). -/
theorem interpolate_singleton {t : TableStore} (ht : t.Inv) (x : Byte) (p : Point) :
    interpolate t x [p] = .ok p.y (if p.y = 0 then t else ensureTables t) := by
  have hmul := feMul_of_built (ensureTables_built ht) 1 p.y
  have hone : tableProduct 1 p.y = p.y := by rw [tableProduct_eq_clmulMod, clmulMod_one_left]
  have hsum : interpolate t x [p] = (feMul t 1 p.y).bind fun term t => .ok (feAdd 0 term) t := rfl
  rw [hsum, hmul, Res.bind_ok, hone]
  simp [feAdd]

/-- Of two or more points with different x, the first basis product or the second divides through the tables. -/
theorem interpolate_of_distinct {t : TableStore} (ht : t.Inv) (x : Byte) {points : List Point} (hne : points ≠ [])
    (hd : DistinctX points) : interpolate t x points =
      .ok (lagrangeAt x points) (if points.map Point.y = [0] then t else ensureTables t) := by
  match points, hne with
  | [p], _ =>
    rw [interpolate_singleton ht, lagrangeAt_singleton]
    simp
  | p :: q :: rest, hne =>
    have hw := interpolate_within_of_distinct t x hne hd NoKind
    have hpq : p.x ≠ q.x := hd.ne (i := 0) (j := 1) rfl rfl (by decide)
    rcases Res.eq_of_noFault (interpolate_noFault (ensureTables_built ht) x (p :: q :: rest)) with ⟨v, u, h⟩ | ⟨k, u, h⟩
    · rw [h, (interpolate_eq_ok ht h).2, if_neg (by simp), (hw.reach_of_ok h).eq_ensureTables (interpolate_ready hpq h)]
    · rw [h] at hw
      exact hw.1.elim

/-! ### The answers of INTERP and RECPT (R111 to R113, R124) -/

theorem exec_interp_nil (x : Byte) (s : State) : exec (.interp x []) s = .next (s.answered s.tbl [0x06]) := rfl

theorem exec_interp_of_distinct {s : State} (hs : s.Inv) (x : Byte) {points : List Point} (hne : points ≠ [])
    (hd : DistinctX points) : exec (.interp x points) s =
      .next (s.answered (if points.map Point.y = [0] then s.tbl else ensureTables s.tbl) [0x00, lagrangeAt x points]) := by
  rw [exec, execInterp, interpolate_of_distinct hs.1 x hne hd]
  rfl

theorem response_eq_of_answered_eq {s : State} {t u : TableStore} {r r' : Frame} {o : Host.Outcome State Fault Refusal}
    (h : o = .next (s.answered t r)) (h' : o = .next (s.answered u r')) : r = r' := by
  have hout := congrArg State.responseOut (Host.Outcome.next.inj (h.symm.trans h'))
  exact List.singleton_inj.1 (List.append_cancel_left hout)

theorem exec_interp_divisionByZero_iff {s : State} (hs : s.Inv) (x : Byte) (points : List Point) :
    (∃ t, (t = s.tbl ∨ t = ensureTables s.tbl) ∧ exec (.interp x points) s = .next (s.answered t [0x07])) ↔
      ¬ DistinctX points := by
  constructor
  · rintro ⟨t, -, h⟩ hd
    rcases eq_or_ne points [] with rfl | hne
    · exact absurd (response_eq_of_answered_eq h (exec_interp_nil x s)) (by decide)
    · exact absurd (response_eq_of_answered_eq h (exec_interp_of_distinct hs x hne hd)) (by simp)
  · intro hd
    obtain ⟨t, ht, h⟩ := interpolate_of_not_distinct hs.1 x hd
    exact ⟨t, ht, by rw [exec, execInterp, h]; rfl⟩

/-- Settles O29: the test for an empty list comes before anything else. -/
theorem emptyInputIsAnswered : Obligations.EmptyInputIsAnswered := fun x s =>
  ⟨exec_interp_nil x s, exec_interp_nil Config.xSecret s, rfl⟩

/-- Settles O30: a run that ends in a value has divided by every difference of two x, and RECPT is INTERP at 255. -/
theorem divisionByZeroExactlyOnEqualX : Obligations.DivisionByZeroExactlyOnEqualX := fun x points _ hs =>
  ⟨exec_interp_divisionByZero_iff hs x points, exec_interp_divisionByZero_iff hs Config.xSecret points⟩

/-- Settles O31: the loops' values are the products and the sum of the formula. -/
theorem interpAnswersLagrangeSum : Obligations.InterpAnswersLagrangeSum := fun x _ _ hs hne hd =>
  exec_interp_of_distinct hs x hne hd

/-- Settles O32: the formula of a single point is its y, and at a point's x the interpolation polynomial has that point's
y. -/
theorem interpAtASamplePoint : Obligations.InterpAtASamplePoint := by
  intro x p points s hs
  constructor
  · have h := exec_interp_of_distinct hs x (List.cons_ne_nil p []) (List.nodup_singleton p.x)
    exact ⟨_, by rw [h, lagrangeAt_singleton]⟩
  · intro hd hp
    exact ⟨_, by rw [exec_interp_of_distinct hs p.x (List.ne_nil_of_mem hp) hd, lagrangeAt_of_mem hd hp]⟩

/-- Settles O33: the interpolation polynomial is that of the set of the points. -/
theorem interpIgnoresTheOrderOfPoints : Obligations.InterpIgnoresTheOrderOfPoints := by
  intro x points points' s hs hd hperm
  rcases eq_or_ne points [] with rfl | hne
  · rw [List.nil_perm.1 hperm]
    exact ⟨_, exec_interp_nil x s, exec_interp_nil x s⟩
  · have hne' : points' ≠ [] := fun h => hne (List.perm_nil.1 (h ▸ hperm))
    have hd' : DistinctX points' := (hperm.map Point.x).nodup hd
    have hzero : points'.map Point.y = [0] ↔ points.map Point.y = [0] := by
      rw [← List.perm_singleton, ← List.perm_singleton, (hperm.map Point.y).congr_left]
    refine ⟨_, exec_interp_of_distinct hs x hne hd, ?_⟩
    rw [exec_interp_of_distinct hs x hne' hd', lagrangeAt_perm hd hperm]
    simp only [hzero]

/-- Settles O34: the polynomial is the points' interpolation polynomial. -/
theorem interpReproducesThePolynomial : Obligations.InterpReproducesThePolynomial := by
  intro c x points s hs hne hd hlen hy
  exact ⟨_, by rw [exec_interp_of_distinct hs x hne hd, lagrangeAt_of_polynomial hd hlen hy]⟩

end Sys2Proof.Machine

/-! PROOFS. SPLIT: its checks, the shares it answers, and that it never answers DivisionByZero (O35, O36, O37, O38). -/

namespace Sys2Proof.Machine

/-! ### The checks (R121), and the kinds SPLIT raises (R122 (c)) -/

theorem execSplit_of_raise {k n : Byte} {secret : List Byte} {s : State} {kind : ErrorKind} {t : TableStore}
    (h : split s.tbl k.toNat n.toNat secret s.available = .raise kind t) :
    execSplit k n secret s = .next (s.answered t [kind.status]) := by
  rw [execSplit, h]
  rfl

/-- Settles O35: each check of `split` where those before it pass, before any draw. -/
theorem splitChecksInOrder : Obligations.SplitChecksInOrder := by
  intro k n secret s
  have hzero : k.toNat = 0 ↔ k = 0 := ⟨fun h => BitVec.eq_of_toNat_eq h, fun h => h ▸ rfl⟩
  refine ⟨fun hs => ?_, fun hs hk => ?_, fun hs hk hkn => ?_, fun hs hk hkn hn => ?_⟩
  · exact execSplit_of_raise (kind := .invalidSecret) (if_pos hs)
  · exact execSplit_of_raise (kind := .invalidThreshold) (by rw [split, if_neg hs, if_pos (hzero.2 hk)])
  · exact execSplit_of_raise (kind := .invalidThreshold) (by
      rw [split, if_neg hs, if_neg (mt hzero.1 hk), if_pos hkn])
  · exact execSplit_of_raise (kind := .tooManyShares) (by
      rw [split, if_neg hs, if_neg (mt hzero.1 hk), if_neg (Nat.not_lt.2 hkn),
        if_pos (show Config.nMax < n.toNat from hn)])

/-- Past its checks SPLIT raises nothing; no check raises DivisionByZero. -/
theorem split_within_checks (t : TableStore) {k : Nat} (hk : k ≤ 256) (n : Nat) (secret avail : List Byte) :
    (split t k n secret avail).Within t (· ≠ .divisionByZero) := by
  unfold split
  split
  · exact ⟨nofun, Reach.refl t⟩
  · split
    · exact ⟨nofun, Reach.refl t⟩
    · split
      · exact ⟨nofun, Reach.refl t⟩
      · split
        · exact ⟨nofun, Reach.refl t⟩
        · exact splitLanes_within_of_le hk n secret avail t _

theorem ErrorKind.status_ne_of_ne_divisionByZero {kind : ErrorKind} (h : kind ≠ .divisionByZero) :
    kind.status ≠ 0x07 := by
  revert h
  cases kind <;> decide

/-- Settles O38: an answer with shares begins with 00, a wait emits nothing, and an error is that of a check. -/
theorem splitNeverDividesByZero : Obligations.SplitNeverDividesByZero := by
  intro k n secret s s' h hout
  rcases execSplit_eq_next h with ⟨values, rest, t, -, rfl⟩ | ⟨t, -, rfl⟩ | ⟨kind, t, hs, rfl⟩
  · simp at hout
  · simp at hout
  · have hw := split_within_checks s.tbl (Nat.le_of_lt k.isLt) n.toNat secret s.available
    rw [hs] at hw
    exact ErrorKind.status_ne_of_ne_divisionByZero hw.1 (by simpa using hout)

/-! ### The points and the shares of one position (R121) -/

theorem drawnPoints_map_range' (f : Nat → Byte) (i n : Nat) :
    drawnPoints i ((List.range' i n).map f) = (List.range' i n).map fun j => ⟨BitVec.ofNat 8 j, f j⟩ := by
  induction n generalizing i with
  | zero => rfl
  | succ n ih => simp [List.range'_succ, drawnPoints, ih]

theorem positionPoints_eq_splitPoints (k : Nat) (secret drawn : List Byte) (p : Nat) :
    positionPoints k secret drawn p =
      splitPoints ((List.range (k - 1)).map (drawnByte k drawn p)) (secret.getD p 0) := by
  rw [positionPoints, splitPoints, List.range_eq_range', drawnPoints_map_range']
  rfl

/-- The bytes drawn for the first position are the first K-1. -/
theorem map_drawnByte_zero {k : Nat} {drawn : List Byte} (h : k - 1 ≤ drawn.length) :
    (List.range (k - 1)).map (drawnByte k drawn 0) = drawn.take (k - 1) := by
  refine List.ext_getElem (by simpa using h) fun i hi _ => ?_
  have hlt : i < drawn.length := by rw [List.length_map, List.length_range] at hi; omega
  simp [drawnByte, hlt]

/-- Position p + 1 of a split is position p of the split of the rest of the secret with the rest of the bytes. -/
theorem drawnByte_succ (k : Nat) (drawn : List Byte) (p i : Nat) :
    drawnByte k drawn (p + 1) i = drawnByte k (drawn.drop (k - 1)) p i := by
  simp only [drawnByte, List.getD_eq_getElem?_getD, List.getElem?_drop, Nat.succ_mul]
  congr 2
  omega

theorem positionPoints_succ (k : Nat) (b : Byte) (secret drawn : List Byte) (p : Nat) :
    positionPoints k (b :: secret) drawn (p + 1) = positionPoints k secret (drawn.drop (k - 1)) p := by
  simp [positionPoints, drawnByte_succ]

theorem shareByte_succ (k : Nat) (b : Byte) (secret drawn : List Byte) (i p : Nat) :
    shareByte k (b :: secret) drawn i (p + 1) = shareByte k secret (drawn.drop (k - 1)) i p := by
  simp [shareByte, drawnByte_succ, positionPoints_succ]

/-! ### The lanes' values are the shares' bytes (R121) -/

theorem interpolateEach_eq_ok {t u : TableStore} (ht : t.Inv) {points : List Point} {xs ys : List Byte}
    (h : interpolateEach points xs t = .ok ys u) : ys = xs.map (lagrangeAt · points) := by
  induction xs generalizing t ys with
  | nil => cases h; rfl
  | cons x xs ih =>
    obtain ⟨y, v, hy, h⟩ := Res.bind_eq_ok h
    obtain ⟨ys', w, hys, h⟩ := Res.bind_eq_ok h
    cases h
    have hv := ((interpolate_within t x points).reach_of_ok hy).inv ht
    rw [List.map_cons, ← (interpolate_eq_ok ht hy).2, ← ih hv hys]

theorem splitColumn_eq_ok {t u : TableStore} (ht : t.Inv) {k n : Nat} (hkn : k ≤ n) {avail column : List Byte}
    (hle : k - 1 ≤ avail.length) {b : Byte} (h : splitColumn k n (avail.take (k - 1)) b t = .ok column u)
    (secret : List Byte) : column = (List.range n).map (shareByte k (b :: secret) avail · 0) := by
  unfold splitColumn at h
  split at h
  · next hk =>
    cases h
    simp [shareByte, hk]
  · next hk =>
    obtain ⟨ys, v, hys, h⟩ := Res.bind_eq_ok h
    cases h
    have hpoints : positionPoints k (b :: secret) avail 0 = splitPoints (avail.take (k - 1)) b := by
      rw [positionPoints_eq_splitPoints, map_drawnByte_zero hle, List.getD_cons_zero]
    have hrange : List.range n = List.range (k - 1) ++ List.range' (k - 1) (n - (k - 1)) := by
      rw [List.range'_eq_map_range, ← List.range_add, Nat.add_sub_cancel' (by omega)]
    rw [interpolateEach_eq_ok ht hys, ← hpoints, ← map_drawnByte_zero hle, splitTargets, hrange, List.map_append,
      List.map_map]
    congr 1
    · refine List.map_congr_left fun i hi => ?_
      rw [shareByte, if_neg hk, if_pos (List.mem_range.1 hi)]
    · refine List.map_congr_left fun i hi => ?_
      rw [shareByte, if_neg hk, if_neg (Nat.not_lt.2 (List.mem_range'_1.1 hi).1)]
      rfl

theorem splitLanes_eq_done {t u : TableStore} (ht : t.Inv) {k n : Nat} (hkn : k ≤ n) {secret avail rest : List Byte}
    {values : List (List Byte)} (h : splitLanes k n secret avail t = .ok (.done values rest) u) :
    values = (List.range n).map fun i => (List.range secret.length).map (shareByte k secret avail i) := by
  induction secret generalizing avail t u values rest with
  | nil => cases h; simp
  | cons b secret ih =>
    rcases Nat.lt_or_ge avail.length (k - 1) with hlt | hle
    · rw [splitLanes_cons_of_lt hlt] at h
      cases h
    · rw [splitLanes_cons_of_le hle] at h
      obtain ⟨column, v, hcolumn, h⟩ := Res.bind_eq_ok h
      obtain ⟨lanes, w, hl, h⟩ := Res.bind_eq_ok h
      cases lanes with
      | starved => cases h
      | done inner rest' =>
        cases h
        have hv := ((splitColumn_within _ _ _ _ t).reach_of_ok hcolumn).inv ht
        rw [splitColumn_eq_ok ht hkn hle hcolumn secret, ih hv hl, List.zipWith_map, List.zipWith_self]
        simp [List.range_succ_eq_map, Function.comp_def, shareByte_succ]

/-- Threshold 1 needs no draw and no lookup, whatever the tables hold (R122 (a)). -/
theorem splitLanes_one (n : Nat) (secret avail : List Byte) (t : TableStore) :
    splitLanes 1 n secret avail t = .ok (.done (List.replicate n secret) avail) t := by
  induction secret with
  | nil => rfl
  | cons b secret ih =>
    rw [splitLanes_cons_of_le (Nat.zero_le _), splitColumn, if_pos rfl, Res.bind_ok, List.drop_zero, ih]
    simp [Lanes.cons]

/-- Past its checks and with its bytes delivered SPLIT ends with the shares' values. -/
theorem splitLanes_of_enough {t : TableStore} (ht : t.Inv) {k n : Nat} {secret avail : List Byte} (hs : secret ≠ [])
    (hk : 1 ≤ k) (hkn : k ≤ n) (hn : n ≤ 16) (h : (k - 1) * secret.length ≤ avail.length) :
    splitLanes k n secret avail t = .ok
      (.done ((List.range n).map fun i => (List.range secret.length).map (shareByte k secret avail i))
        (avail.drop ((k - 1) * secret.length)))
      (if k = 1 then t else ensureTables t) := by
  obtain ⟨lanes, u, hl⟩ := splitLanes_exists_ok ht (k := k) (by omega) n secret avail
  have htables : u = if k = 1 then t else ensureTables t := by
    split
    · next hk1 =>
      subst hk1
      rw [splitLanes_one] at hl
      cases hl
      rfl
    · have hlen : k - 1 ≤ (k - 1) * secret.length := Nat.le_mul_of_pos_right _ (List.length_pos_iff.2 hs)
      rw [splitLanes_tables (by omega) hkn (by omega) hs hl, if_neg (by omega)]
  rcases splitLanes_eq_ok hl with ⟨-, hlt⟩ | ⟨-, values, rfl⟩
  · omega
  · rw [hl, splitLanes_eq_done ht hkn hl, htables]

/-! ### The answer (R121, R65) -/

theorem indexShares_map_range' (f : Nat → List Byte) (i n : Nat) :
    indexShares i ((List.range' i n).map f) = (List.range' i n).map fun j => ⟨BitVec.ofNat 8 j, f j⟩ := by
  induction n generalizing i with
  | zero => rfl
  | succ n ih => simp [List.range'_succ, indexShares, ih]

theorem indexShares_map_range (f : Nat → List Byte) (n : Nat) :
    indexShares 0 ((List.range n).map f) = (List.range n).map fun j => ⟨BitVec.ofNat 8 j, f j⟩ := by
  rw [List.range_eq_range', indexShares_map_range']

theorem payloadShares_of_length {shares : List Share} {n : Byte} (h : shares.length = n.toNat) :
    payloadShares shares = n :: shares.flatMap Share.record := by
  rw [payloadShares, countByte_eq_of_length h]

theorem sharesOf_length (k n : Nat) (secret drawn : List Byte) : (sharesOf k n secret drawn).length = n := by
  simp [sharesOf]

/-- Settles O36: with threshold 1 every position's column is the secret byte N times. -/
theorem splitWithThresholdOne : Obligations.SplitWithThresholdOne := by
  intro n secret s hidle hs hn1 hn
  have havail : s.available = s.entropyIn := by rw [State.available, hidle, Executor.drawn_idle, List.nil_append]
  have hsplit := split_of_checks (t := s.tbl) (avail := s.available) hs Nat.one_ne_zero hn1 hn
  have hvalues : List.replicate n.toNat secret = (List.range n.toNat).map fun _ => secret := by simp
  rw [splitLanes_one, hvalues] at hsplit
  rw [exec, execSplit_of_done hsplit, havail, indexShares_map_range, payloadShares_of_length (n := n) (by simp),
    List.flatMap_map]
  rfl

/-- Settles O37: the lanes' values, given their indices, are the shares. -/
theorem splitAnswersTheShares : Obligations.SplitAnswersTheShares := by
  intro k n secret s hinv hs hk hkn hn hlen
  have hone : k.toNat = 1 ↔ k = 1 := ⟨fun h => BitVec.eq_of_toNat_eq h, fun h => h ▸ rfl⟩
  have hsplit := split_of_checks (t := s.tbl) (avail := s.available) hs (Nat.ne_of_gt hk) hkn hn
  rw [splitLanes_of_enough hinv.1 hs hk hkn hn hlen] at hsplit
  rw [exec, execSplit_of_done hsplit, indexShares_map_range, ← sharesOf, payloadShares_of_length (sharesOf_length ..)]
  simp only [hone]
  rfl

end Sys2Proof.Machine

/-! PROOFS. RECSH, RECPT, MKSHR and MKPT: their checks and their answers (O41 to O48). -/

namespace Sys2Proof.Machine

/-! ### The checks of RECSH (R123) -/

theorem any_index_eq_true_iff {shares : List Share} :
    (shares.any fun sh => Config.idxMax < sh.index.toNat) = true ↔ ∃ sh ∈ shares, 15 < sh.index.toNat := by
  simp only [List.any_eq_true, decide_eq_true_eq]
  rfl

theorem any_index_ne_true_of_le {shares : List Share} (h : ∀ sh ∈ shares, sh.index.toNat ≤ 15) :
    ¬ (shares.any fun sh => Config.idxMax < sh.index.toNat) = true := fun hany =>
  have ⟨sh, hsh, hlt⟩ := any_index_eq_true_iff.1 hany
  Nat.not_lt.2 (h sh hsh) hlt

/-- Settles O41: the test of the indices comes before that of the lengths. -/
theorem recshChecksInOrder : Obligations.RecshChecksInOrder := by
  intro first others s
  constructor
  · intro hindex
    rw [exec, execRecsh, recoverShares, if_pos (any_index_eq_true_iff.2 hindex)]
    rfl
  · intro hindex hsize
    rw [exec, execRecsh, recoverShares, if_neg (any_index_ne_true_of_le hindex), if_pos (by simpa using hsize)]
    rfl

theorem recoverShares_of_checks (t : TableStore) {shares : List Share} {len : Nat} (hne : shares ≠ [])
    (hindex : ∀ sh ∈ shares, sh.index.toNat ≤ 15) (hlen : ∀ sh ∈ shares, sh.value.length = len) :
    recoverShares t shares = recoverLanes shares (List.range len) t := by
  obtain ⟨first, others, rfl⟩ := List.exists_cons_of_ne_nil hne
  obtain ⟨hfirst, hothers⟩ := List.forall_mem_cons.1 hlen
  have hsize : (others.any fun sh => sh.value.length ≠ first.value.length) = false := by
    simpa [hfirst] using hothers
  rw [recoverShares, if_neg (any_index_ne_true_of_le hindex), hsize, if_neg Bool.false_ne_true, hfirst]

/-! ### The positions of RECSH (R123) -/

/-- The byte at a position (R123), as a function of the shares' bytes there. -/
def recoveredByte (shares : List Share) (p : Nat) : Byte := lagrangeAt 255 (shares.map (Share.pointAt p))

theorem map_pointAt_distinct_iff {shares : List Share} {p : Nat} :
    DistinctX (shares.map (Share.pointAt p)) ↔ (shares.map Share.index).Nodup := by
  rw [DistinctX, List.map_map]
  rfl

theorem recoverLanes_eq_ok {t u : TableStore} (ht : t.Inv) {shares : List Share} {ps : List Nat} {out : List Byte}
    (h : recoverLanes shares ps t = .ok out u) : out = ps.map (recoveredByte shares) := by
  induction ps generalizing t out with
  | nil => cases h; rfl
  | cons p ps ih =>
    obtain ⟨b, v, hb, h⟩ := Res.bind_eq_ok h
    obtain ⟨bs, w, hbs, h⟩ := Res.bind_eq_ok h
    cases h
    have hv := ((interpolate_within t _ _).reach_of_ok hb).inv ht
    rw [List.map_cons, ← ih hv hbs, (interpolate_eq_ok ht hb).2]
    rfl

/-- The positions where the one share's byte is 0 need no lookup. -/
theorem recoverLanes_of_nodup {t : TableStore} (ht : t.Inv) {shares : List Share} (hne : shares ≠ [])
    (hd : (shares.map Share.index).Nodup) (ps : List Nat) :
    recoverLanes shares ps t = .ok (ps.map (recoveredByte shares))
      (if ∀ p ∈ ps, shares.map (fun sh => sh.value.getD p 0) = [0] then t else ensureTables t) := by
  induction ps generalizing t with
  | nil => simp [recoverLanes]
  | cons p ps ih =>
    have hpoints : shares.map (Share.pointAt p) ≠ [] := by simpa using hne
    have hy : (shares.map (Share.pointAt p)).map Point.y = shares.map fun sh => sh.value.getD p 0 := by
      rw [List.map_map]; rfl
    rw [recoverLanes, interpolate_of_distinct ht _ hpoints (map_pointAt_distinct_iff.2 hd), Res.bind_ok, hy,
      ih (ite_ensureTables_inv ht _), Res.bind_ok]
    by_cases hzero : shares.map (fun sh => sh.value.getD p 0) = [0]
    · have hcons : (∀ q ∈ p :: ps, shares.map (fun sh => sh.value.getD q 0) = [0]) ↔
          ∀ q ∈ ps, shares.map (fun sh => sh.value.getD q 0) = [0] :=
        List.forall_mem_cons.trans (and_iff_right hzero)
      rw [if_pos hzero, if_congr hcons rfl rfl]
      rfl
    · rw [if_neg hzero, ensureTables_idem, ite_self, if_neg fun h => hzero (h p List.mem_cons_self)]
      rfl

theorem forall_map_getD_eq_zero_iff {shares : List Share} {len : Nat} (hlen : ∀ sh ∈ shares, sh.value.length = len) :
    (∀ p ∈ List.range len, shares.map (fun sh => sh.value.getD p 0) = [0]) ↔
      len = 0 ∨ (shares.length = 1 ∧ ∀ sh ∈ shares, ∀ b ∈ sh.value, b = 0) := by
  constructor
  · refine fun h => or_iff_not_imp_left.2 fun hpos => ?_
    have hone : shares.length = 1 := by
      simpa using congrArg List.length (h 0 (List.mem_range.2 (Nat.pos_of_ne_zero hpos)))
    refine ⟨hone, fun sh hsh b hb => ?_⟩
    obtain ⟨i, hi, rfl⟩ := List.getElem_of_mem hb
    obtain ⟨sh', rfl⟩ := List.length_eq_one_iff.1 hone
    obtain rfl := List.mem_singleton.1 hsh
    simpa [hi] using h i (List.mem_range.2 (hlen sh hsh ▸ hi))
  · rintro (rfl | ⟨hone, hzero⟩) p hp
    · cases hp
    · obtain ⟨sh, rfl⟩ := List.length_eq_one_iff.1 hone
      have hsh := List.mem_singleton_self sh
      have hlt : p < sh.value.length := hlen sh hsh ▸ List.mem_range.1 hp
      simpa [hlt] using hzero sh hsh _ (List.getElem_mem hlt)

theorem exec_recsh_of_nodup {s : State} (hs : s.Inv) {shares : List Share} {len : Nat} (hne : shares ≠ [])
    (hindex : ∀ sh ∈ shares, sh.index.toNat ≤ 15) (hlen : ∀ sh ∈ shares, sh.value.length = len)
    (hd : (shares.map Share.index).Nodup) : exec (.recsh shares) s =
      .next (s.answered
        (if len = 0 ∨ (shares.length = 1 ∧ ∀ sh ∈ shares, ∀ b ∈ sh.value, b = 0) then s.tbl else ensureTables s.tbl)
        (0x00 :: BitVec.ofNat 8 len :: (List.range len).map (recoveredByte shares))) := by
  rw [exec, execRecsh, recoverShares_of_checks s.tbl hne hindex hlen, recoverLanes_of_nodup hs.1 hne hd,
    if_congr (forall_map_getD_eq_zero_iff hlen) rfl rfl, State.finish, payloadSecret, countByte, List.length_map,
    List.length_range]
  rfl

/-- Settles O42: with different indices every position's points have different x; empty values have no position. -/
theorem recshAnswersLagrangeValues : Obligations.RecshAnswersLagrangeValues := by
  intro shares len s hs hne hindex hlen hd
  rcases hd with rfl | hd
  · rw [exec, execRecsh, recoverShares_of_checks s.tbl hne hindex hlen, if_pos (.inl rfl)]
    rfl
  · exact exec_recsh_of_nodup hs hne hindex hlen hd

/-- Settles O43: the first position's points have two equal x. -/
theorem recshRejectsEqualIndices : Obligations.RecshRejectsEqualIndices := by
  intro shares len s hs hindex hlen hpos hd
  have hne : shares ≠ [] := by
    rintro rfl
    exact hd List.nodup_nil
  obtain ⟨len, rfl⟩ := Nat.exists_eq_succ_of_ne_zero hpos
  have hx := mt (map_pointAt_distinct_iff (p := 0)).1 hd
  obtain ⟨t, ht, hraise⟩ := interpolate_of_not_distinct hs.1 Config.xSecret hx
  refine ⟨t, ht, ?_⟩
  rw [exec, execRecsh, recoverShares_of_checks s.tbl hne hindex hlen, List.range_succ_eq_map, recoverLanes, hraise]
  rfl

theorem recoverShares_eq_ok {t u : TableStore} (ht : t.Inv) {shares : List Share} {out : List Byte}
    (h : recoverShares t shares = .ok out u) : out = (List.range out.length).map (recoveredByte shares) := by
  unfold recoverShares at h
  split at h
  · cases h
  · split at h
    · cases h
    · split at h
      · cases h
      · rw [recoverLanes_eq_ok ht h, List.length_map, List.length_range]

/-- The points of a position are made of the shares' indices and of their bytes there. -/
theorem map_pointAt_eq (shares : List Share) (p : Nat) : shares.map (Share.pointAt p) =
    (shares.map fun sh : Share => (sh.index, sh.value[p]?)).map fun c => ⟨c.1, c.2.getD 0⟩ := by
  simp [Share.pointAt]

/-- Settles O46: the two recoveries interpolate the same points at the position. -/
theorem recshLanesAreIndependent : Obligations.RecshLanesAreIndependent := by
  intro shares shares' t t' u u' out out' p ht ht' h h' hp hp' hbytes
  have hpoints : shares.map (Share.pointAt p) = shares'.map (Share.pointAt p) := by
    rw [map_pointAt_eq, map_pointAt_eq, hbytes]
  rw [recoverShares_eq_ok ht h, recoverShares_eq_ok ht' h', List.getElem?_map, List.getElem?_map,
    List.getElem?_range hp, List.getElem?_range hp', Option.map_some, Option.map_some, recoveredByte, recoveredByte,
    hpoints]

/-! ### RECPT, MKSHR and MKPT (R124 to R126) -/

/-- Settles O44: both are `interpolate` at 255, answered with its one byte. -/
theorem recptIsInterpAt255 : Obligations.RecptIsInterpAt255 := fun _ _ => rfl

/-- Settles O45: RECPT is INTERP at 255. -/
theorem recptAnswersLagrangeSum : Obligations.RecptAnswersLagrangeSum := fun points s hs hne hd =>
  (recptIsInterpAt255 points s).trans (exec_interp_of_distinct hs 255 hne hd)

/-- Settles O47: the index is the only check. -/
theorem mkshrChecksAndEchoes : Obligations.MkshrChecksAndEchoes := by
  intro index value s
  rw [exec, execMkshr, mkShare, Config.idxMax]
  split <;> rfl

/-- Settles O48: MKPT ends with the point as presented and the tables it found. -/
theorem mkptEchoes : Obligations.MkptEchoes := fun _ _ _ => rfl

end Sys2Proof.Machine

/-! PROOFS. Recovering the secret of a split from K or more of its shares (O49). -/

namespace Sys2Proof.Machine

/-- Points that lie on the interpolation polynomial of no more points than they are have the same interpolation
polynomial. -/
theorem lagrangeAt_of_lagrangeAt {points points' : List Point} (hd : DistinctX points) (hd' : DistinctX points')
    (hlen : points.length ≤ points'.length) (hy : ∀ q ∈ points', q.y = lagrangeAt q.x points) (x : Byte) :
    lagrangeAt x points' = lagrangeAt x points := by
  refine fieldElem_injective ?_
  have hcard : points.toFinset.card ≤ points'.toFinset.card := by
    rwa [List.toFinset_card_of_nodup hd.nodup, List.toFinset_card_of_nodup hd'.nodup]
  have hdeg := (Lagrange.degree_interpolate_lt (fun p => fieldElem p.y) hd.injOn_x).trans_le (Nat.cast_le.2 hcard)
  rw [fieldElem_lagrangeAt hd.nodup, fieldElem_lagrangeAt hd'.nodup]
  refine congrArg _ (Lagrange.eq_interpolate_of_eval_eq _ hd'.injOn_x hdeg fun q hq => ?_).symm
  rw [← fieldElem_lagrangeAt hd.nodup, hy q (List.mem_toFinset.1 hq)]

/-! ### One position: every share's point lies on the polynomial of the position's K points (R121, R128) -/

theorem positionPoints_distinct {k : Nat} (hk : k ≤ 16) (secret drawn : List Byte) (p : Nat) :
    DistinctX (positionPoints k secret drawn p) := by
  rw [positionPoints_eq_splitPoints]
  exact splitPoints_distinct (by rw [List.length_map, List.length_range]; omega) _

theorem positionPoints_length {k : Nat} (hk : 1 ≤ k) (secret drawn : List Byte) (p : Nat) :
    (positionPoints k secret drawn p).length = k := by
  simp [positionPoints, Nat.sub_add_cancel hk]

theorem shareByte_eq_lagrangeAt {k : Nat} (hk : k ≤ 16) (secret drawn : List Byte) (i p : Nat) :
    shareByte k secret drawn i p = lagrangeAt (BitVec.ofNat 8 i) (positionPoints k secret drawn p) := by
  unfold shareByte
  split
  · next h1 =>
    subst h1
    exact (lagrangeAt_singleton _ ⟨255, secret.getD p 0⟩).symm
  · split
    · next hi =>
      have hmem : ⟨BitVec.ofNat 8 i, drawnByte k drawn p i⟩ ∈ positionPoints k secret drawn p :=
        List.mem_append_left _ (List.mem_map_of_mem (List.mem_range.2 hi))
      exact (lagrangeAt_of_mem (positionPoints_distinct hk secret drawn p) hmem).symm
    · rfl

theorem lagrangeAt_xSecret_positionPoints {k : Nat} (hk : k ≤ 16) (secret drawn : List Byte) (p : Nat) :
    lagrangeAt 255 (positionPoints k secret drawn p) = secret.getD p 0 :=
  lagrangeAt_of_mem (p := ⟨255, secret.getD p 0⟩) (positionPoints_distinct hk secret drawn p)
    (List.mem_append_right _ (List.mem_singleton_self _))

/-! ### The shares of a split (R120, R121) -/

theorem mem_sharesOf {k n : Nat} {secret drawn : List Byte} {sh : Share} (h : sh ∈ sharesOf k n secret drawn) :
    ∃ i < n, sh = ⟨BitVec.ofNat 8 i, (List.range secret.length).map (shareByte k secret drawn i)⟩ := by
  obtain ⟨i, hi, rfl⟩ := List.mem_map.1 h
  exact ⟨i, List.mem_range.1 hi, rfl⟩

theorem sharesOf_value_length {k n : Nat} {secret drawn : List Byte} {sh : Share}
    (h : sh ∈ sharesOf k n secret drawn) : sh.value.length = secret.length := by
  obtain ⟨i, -, rfl⟩ := mem_sharesOf h
  rw [List.length_map, List.length_range]

theorem sharesOf_index_le {k n : Nat} (hn : n ≤ 16) {secret drawn : List Byte} {sh : Share}
    (h : sh ∈ sharesOf k n secret drawn) : sh.index.toNat ≤ 15 := by
  obtain ⟨i, hi, rfl⟩ := mem_sharesOf h
  rw [BitVec.toNat_ofNat]
  omega

theorem sharesOf_injOn_index {k n : Nat} (hn : n ≤ 16) {secret drawn : List Byte} {sh sh' : Share}
    (h : sh ∈ sharesOf k n secret drawn) (h' : sh' ∈ sharesOf k n secret drawn) (heq : sh.index = sh'.index) :
    sh = sh' := by
  obtain ⟨i, hi, rfl⟩ := mem_sharesOf h
  obtain ⟨j, hj, rfl⟩ := mem_sharesOf h'
  have hij := congrArg BitVec.toNat heq
  rw [BitVec.toNat_ofNat, BitVec.toNat_ofNat] at hij
  obtain rfl : i = j := by omega
  rfl

theorem pointAt_y_of_mem_sharesOf {k n : Nat} (hk : k ≤ 16) {secret drawn : List Byte} {sh : Share}
    (h : sh ∈ sharesOf k n secret drawn) {p : Nat} (hp : p < secret.length) :
    (Share.pointAt p sh).y = lagrangeAt (Share.pointAt p sh).x (positionPoints k secret drawn p) := by
  obtain ⟨i, -, rfl⟩ := mem_sharesOf h
  simp only [Share.pointAt, ← shareByte_eq_lagrangeAt hk]
  simp [hp]

/-! ### Recovery (R128) -/

/-- K or more different shares recover the secret byte of every position. -/
theorem recoveredByte_of_sharesOf {k n : Nat} (hk : 1 ≤ k) (hkn : k ≤ n) (hn : n ≤ 16) {secret drawn : List Byte}
    {chosen : List Share} (hd : (chosen.map Share.index).Nodup) (hmem : ∀ sh ∈ chosen, sh ∈ sharesOf k n secret drawn)
    (hlen : k ≤ chosen.length) {p : Nat} (hp : p < secret.length) :
    recoveredByte chosen p = secret.getD p 0 := by
  have hk16 : k ≤ 16 := hkn.trans hn
  have hline : ∀ q ∈ chosen.map (Share.pointAt p), q.y = lagrangeAt q.x (positionPoints k secret drawn p) := by
    intro q hq
    obtain ⟨sh, hsh, rfl⟩ := List.mem_map.1 hq
    exact pointAt_y_of_mem_sharesOf hk16 (hmem sh hsh) hp
  rw [recoveredByte, ← lagrangeAt_xSecret_positionPoints hk16 secret drawn p]
  exact lagrangeAt_of_lagrangeAt (positionPoints_distinct hk16 secret drawn p) (map_pointAt_distinct_iff.2 hd)
    (by rwa [positionPoints_length hk, List.length_map]) hline 255

theorem map_getD_range (l : List Byte) : (List.range l.length).map (l.getD · 0) = l :=
  List.ext_getElem (by simp) fun i _ hi => by simp [hi]

theorem exec_recsh_of_sharesOf {u : State} (hu : u.Inv) {k n : Nat} (hk : 1 ≤ k) (hkn : k ≤ n) (hn : n ≤ 16)
    {secret drawn : List Byte} {chosen : List Share} (hnodup : chosen.Nodup)
    (hmem : ∀ sh ∈ chosen, sh ∈ sharesOf k n secret drawn) (hlen : k ≤ chosen.length) :
    ∃ tbl, exec (.recsh chosen) u = .next (u.answered tbl (0x00 :: BitVec.ofNat 8 secret.length :: secret)) := by
  have hne : chosen ≠ [] := fun h => by rw [h, List.length_nil] at hlen; omega
  have hd : (chosen.map Share.index).Nodup :=
    hnodup.map_on fun sh hsh sh' hsh' => sharesOf_injOn_index hn (hmem sh hsh) (hmem sh' hsh')
  have hbytes : (List.range secret.length).map (recoveredByte chosen) = secret := by
    rw [List.map_congr_left fun p hp => recoveredByte_of_sharesOf hk hkn hn hd hmem hlen (List.mem_range.1 hp),
      map_getD_range]
  have hanswer := exec_recsh_of_nodup hu hne (fun sh hsh => sharesOf_index_le hn (hmem sh hsh))
    (fun sh hsh => sharesOf_value_length (hmem sh hsh)) hd
  exact ⟨_, by rw [hanswer, hbytes]⟩

theorem decode_recsh_body {shares : List Share} {n : Byte} (hlen : shares.length = n.toNat)
    (hwf : ∀ sh ∈ shares, sh.wf = true) : decode (0x21 :: n :: shares.flatMap Share.record) = .ok (.recsh shares) := by
  have h := decodeShl_of_shares (hlen ▸ Nat.le_of_lt_succ n.isLt) hwf
  rwa [countByte_eq_of_length hlen] at h

/-- Settles O49: the shares' points lie, position by position, on the polynomial of the position's K points, whose
value at 255 is the secret byte. -/
theorem splitThenRecoverReturnsTheSecret : Obligations.SplitThenRecoverReturnsTheSecret := by
  intro k n secret s u hs hu hne hlen hk hkn hn hbytes
  have hcount := sharesOf_length k.toNat n.toNat secret s.available
  refine ⟨_, _, sharesOf k.toNat n.toNat secret s.available,
    splitAnswersTheShares k n secret s hs hne hk hkn hn hbytes, rfl, ?_, hcount, fun chosen hnodup hmem hchosen => ?_⟩
  · exact decode_recsh_body hcount fun sh hsh => decide_eq_true (sharesOf_value_length hsh ▸ hlen)
  · exact exec_recsh_of_sharesOf hu hk hkn hn hnodup hmem hchosen

end Sys2Proof.Machine

/-! PROOFS. A command answered with an error leaves all but the tables as it was, and the tables too, but where an
interpolation divides by zero (O26). -/

namespace Sys2Proof.Machine

/-! ### The tables a piece of work leaves when it raises an error (R153) -/

/-- An error of the work leaves the tables `t` it started from; only a division by zero, and only where `mayBuild` holds,
may leave the ensured ones. -/
def Res.ErrorKeeps {α : Type} (t : TableStore) (mayBuild : Prop) : Res α → Prop
  | .ok _ _ => True
  | .raise kind u => u = t ∨ kind = .divisionByZero ∧ u = ensureTables t ∧ mayBuild
  | .fault _ => True

theorem Res.errorKeeps_ok {α : Type} (v : α) (t u : TableStore) (P : Prop) : (Res.ok v u).ErrorKeeps t P := trivial

theorem Res.Within.errorKeeps_of_noKind {α : Type} {t : TableStore} {r : Res α} (h : r.Within t NoKind) (P : Prop) :
    r.ErrorKeeps t P := by
  cases r with
  | ok v u => trivial
  | raise kind u => exact h.1.elim
  | fault e => trivial

theorem Res.Within.errorKeeps_of_onlyDivision {α : Type} {t : TableStore} {r : Res α} (h : r.Within t OnlyDivision)
    {P : Prop} (hP : P) : r.ErrorKeeps t P := by
  cases r with
  | ok v u => trivial
  | raise kind u =>
    obtain ⟨hkind, hreach⟩ := h
    exact hreach.imp_right fun hu => ⟨hkind, hu, hP⟩
  | fault e => trivial

/-- FDIV tests the divisor before any lookup (R89). -/
theorem feDiv_errorKeeps (t : TableStore) (a b : Byte) (P : Prop) : (feDiv t a b).ErrorKeeps t P := by
  by_cases hb : b = 0
  · rw [feDiv, if_pos hb]
    exact .inl rfl
  · exact (feDiv_within_of_ne_zero t a hb NoKind).errorKeeps_of_noKind P

/-- With a point to start from, interpolation raises nothing but a division by zero (R111). -/
theorem interpolate_within_of_ne_nil (t : TableStore) (x : Byte) {points : List Point} (hne : points ≠ []) :
    (interpolate t x points).Within t OnlyDivision := by
  rw [interpolate, if_neg hne]
  exact sumLoop_within x points 0 points 0 t

theorem interpolate_errorKeeps (t : TableStore) (x : Byte) (points : List Point) {P : Prop} (hP : P) :
    (interpolate t x points).ErrorKeeps t P := by
  by_cases hne : points = []
  · rw [interpolate, if_pos hne]
    exact .inl rfl
  · exact (interpolate_within_of_ne_nil t x hne).errorKeeps_of_onlyDivision hP

theorem recoverLanes_within_of_ne_nil {shares : List Share} (hne : shares ≠ []) (ps : List Nat) (t : TableStore) :
    (recoverLanes shares ps t).Within t OnlyDivision := by
  induction ps generalizing t with
  | nil => exact Reach.refl t
  | cons p ps ih =>
    have hpoints : shares.map (Share.pointAt p) ≠ [] := mt List.map_eq_nil_iff.1 hne
    exact (interpolate_within_of_ne_nil t Config.xSecret hpoints).bind fun b u => (ih u).bind fun bs w => Reach.refl w

/-- The three checks of `recover_shares` come before any lookup (R123). -/
theorem recoverShares_errorKeeps (t : TableStore) (shares : List Share) {P : Prop} (hP : P) :
    (recoverShares t shares).ErrorKeeps t P := by
  unfold recoverShares
  split
  · exact .inl rfl
  · split
    · exact .inl rfl
    · split
      · exact .inl rfl
      · exact (recoverLanes_within_of_ne_nil (List.cons_ne_nil _ _) _ t).errorKeeps_of_onlyDivision hP

/-- The four checks of `split` come before any lookup, and past them it raises nothing (R121, R122 (c)). -/
theorem split_errorKeeps (t : TableStore) {k : Nat} (hk : k ≤ 256) (n : Nat) (secret avail : List Byte) (P : Prop) :
    (split t k n secret avail).ErrorKeeps t P := by
  unfold split
  split
  · exact .inl rfl
  · split
    · exact .inl rfl
    · split
      · exact .inl rfl
      · split
        · exact .inl rfl
        · exact (splitLanes_within_of_le hk n secret avail t NoKind).errorKeeps_of_noKind P

theorem mkShare_errorKeeps (t : TableStore) (index : Byte) (value : List Byte) (P : Prop) :
    (mkShare t index value).ErrorKeeps t P := by
  unfold mkShare
  split
  · exact .inl rfl
  · trivial

/-! ### The state after an error (R150, R153) -/

/-- From `s` to `s'`, answered with the error status `c`: nothing but the tables changes, and they only by a build before
a DivisionByZero, where `mayBuild` holds. -/
def KeptOnError (s s' : State) (c : Byte) (mayBuild : Prop) : Prop :=
  s' = s.answered s'.tbl [c] ∧ (s'.tbl = s.tbl ∨ c = 0x07 ∧ s'.tbl = ensureTables s.tbl ∧ mayBuild)

theorem Res.ErrorKeeps.keptOnError {α : Type} {s : State} {r : Res α} {P : Prop} {kind : ErrorKind} {t : TableStore}
    {c : Byte} (h : r.ErrorKeeps s.tbl P) (hr : r = .raise kind t)
    (hc : (s.answered t [kind.status]).responseOut = s.responseOut ++ [[c]]) :
    KeptOnError s (s.answered t [kind.status]) c P := by
  subst hr
  obtain rfl : kind.status = c := by simpa using hc
  exact ⟨rfl, h.imp_right fun ⟨hkind, htbl⟩ => ⟨hkind ▸ rfl, htbl⟩⟩

/-- An OK response has a payload, so that one status byte alone answers an error. -/
theorem State.finish_keptOnError {α : Type} {s s' : State} {p : α → List Byte} {r : Res α} {P : Prop} {c : Byte}
    (hp : ∀ v, p v ≠ []) (hr : r.ErrorKeeps s.tbl P) (h : s.finish p r = .next s')
    (hc : s'.responseOut = s.responseOut ++ [[c]]) : KeptOnError s s' c P := by
  rcases State.finish_eq_next h with ⟨v, t, -, rfl⟩ | ⟨kind, t, hraise, rfl⟩
  · simp [hp v] at hc
  · exact hr.keptOnError hraise hc

theorem State.finish_payloadByte_keptOnError {s s' : State} {r : Res Byte} {P : Prop} {c : Byte}
    (hr : r.ErrorKeeps s.tbl P) (h : s.finish payloadByte r = .next s')
    (hc : s'.responseOut = s.responseOut ++ [[c]]) : KeptOnError s s' c P :=
  State.finish_keptOnError (fun _ => List.cons_ne_nil _ _) hr h hc

/-- SPLIT answers one byte only where it raises: shares come after the byte N, and a wait emits nothing. -/
theorem execSplit_keptOnError {k n : Byte} {secret : List Byte} {s s' : State} {c : Byte}
    (h : execSplit k n secret s = .next s') (hc : s'.responseOut = s.responseOut ++ [[c]]) (P : Prop) :
    KeptOnError s s' c P := by
  rcases execSplit_eq_next h with ⟨values, rest, t, -, rfl⟩ | ⟨t, -, rfl⟩ | ⟨kind, t, hraise, rfl⟩
  · simp [payloadShares] at hc
  · simp at hc
  · exact (split_errorKeeps s.tbl (Nat.le_of_lt k.isLt) n.toNat secret s.available P).keptOnError hraise hc

/-- Settles O26: every check comes before the first lookup, so that only a division by zero inside an interpolation can
find the tables built. -/
theorem failingCommandsChangeNothing : Obligations.FailingCommandsChangeNothing := by
  intro i s s' c h hc
  cases i with
  | fadd a b => exact State.finish_payloadByte_keptOnError (Res.errorKeeps_ok _ _ _ _) h hc
  | fsub a b => exact State.finish_payloadByte_keptOnError (Res.errorKeeps_ok _ _ _ _) h hc
  | fmul a b => exact State.finish_payloadByte_keptOnError ((feMul_within s.tbl a b NoKind).errorKeeps_of_noKind _) h hc
  | fdiv a b => exact State.finish_payloadByte_keptOnError (feDiv_errorKeeps s.tbl a b _) h hc
  | fpow f e =>
    exact State.finish_payloadByte_keptOnError
      ((fePowLoop_within f e.toNat 1 s.tbl NoKind).errorKeeps_of_noKind _) h hc
  | interp x points =>
    exact State.finish_payloadByte_keptOnError (interpolate_errorKeeps s.tbl x points (.inl ⟨x, points, rfl⟩)) h hc
  | split k n secret => exact execSplit_keptOnError h hc _
  | recsh shares =>
    exact State.finish_keptOnError (fun _ => List.cons_ne_nil _ _)
      (recoverShares_errorKeeps s.tbl shares (.inr (.inl ⟨shares, rfl⟩))) h hc
  | recpt points =>
    exact State.finish_payloadByte_keptOnError
      (interpolate_errorKeeps s.tbl Config.xSecret points (.inr (.inr ⟨points, rfl⟩))) h hc
  | mkshr index value =>
    exact State.finish_keptOnError (fun _ => List.cons_ne_nil _ _) (mkShare_errorKeeps s.tbl index value _) h hc
  | mkpt x y => exact State.finish_keptOnError (fun _ => List.cons_ne_nil _ _) (Res.errorKeeps_ok _ _ _ _) h hc

end Sys2Proof.Machine

/-! PROOFS. Reset and the idle unit (O22, O51), and progress: no step stops the machine, and with enough bytes delivered
every frame is answered (O54, O27). -/

namespace Sys2Proof.Machine

/-! ### Reset, an idle unit, a waiting unit (R180, R181, R19) -/

/-- Settles O22: with no frame the executor has no move but to stay, and in BUSY its move is the command's. -/
theorem stepWithoutAFrame : Obligations.StepWithoutAFrame := fun _ hr =>
  ⟨step_of_no_frame hr, fun _ _ he => step_of_busy hr he⟩

/-- Settles O51: a step tests the reset line before the executor moves. -/
theorem resetAbandonsTheCommand : Obligations.ResetAbandonsTheCommand := fun _ hr => step_of_reset hr

/-! ### Progress (R192, R85, R52) -/

/-- Where the tables, once ensured, are the built ones, no frame stops the machine. -/
theorem runFrame_of_built (f : Frame) {s : State} (hb : (ensureTables s.tbl).Built) :
    ∃ s', runFrame f s = .next s' := by
  unfold runFrame
  split
  · exact ⟨_, rfl⟩
  · next i _ => exact exec_of_built i hb

/-- Settles O54: the invariant makes the ensured tables the built ones, over which neither a frame nor a command in flight
stops the machine. -/
theorem stepNeverStops : Obligations.StepNeverStops := by
  rintro s ⟨ht, -⟩
  have hb := ensureTables_built ht
  cases hr : s.resetAsserted with
  | true => exact ⟨_, step_of_reset hr⟩
  | false =>
    cases he : s.executor with
    | busy i drawn => rw [step_of_busy hr he]; exact exec_of_built i hb
    | idle =>
      cases hc : s.commandIn with
      | nil => exact ⟨_, step_of_no_frame hr he hc⟩
      | cons f rest => rw [step_of_frame hr he hc]; exact runFrame_of_built f hb

/-! ### Enough entropy for any SPLIT (R43, R18) -/

/-- No SPLIT that frames can carry starves on 3,825 bytes: it draws at most 15 for each of at most 255 positions. -/
theorem split_ne_starved {t u : TableStore} {k n : Nat} {secret avail : List Byte} (hlen : secret.length ≤ Config.lMax)
    (havail : 3825 ≤ avail.length) : split t k n secret avail ≠ .ok .starved u := by
  intro h
  obtain ⟨-, -, hkn, hn, hlt, -⟩ := split_eq_starved h
  have hk : k - 1 ≤ 15 := Nat.sub_le_sub_right (Nat.le_trans hkn hn) 1
  have hdraws : (k - 1) * secret.length ≤ 15 * 255 := Nat.mul_le_mul hk hlen
  omega

/-- A command that frames can carry ends in IDLE where it finds 3,825 bytes. -/
theorem exec_idle_of_enough {i : Instr} {s s' : State} (hwf : i.wf = true) (havail : 3825 ≤ s.available.length)
    (h : exec i s = .next s') : s'.executor = .idle := by
  by_contra hbusy
  obtain ⟨k, n, secret, t, rfl, hstarved, -⟩ := exec_eq_next_busy h hbusy
  exact split_ne_starved (of_decide_eq_true hwf) havail hstarved

/-- Settles O27: a rejected frame is answered at once, and the command of any other frame finds the bytes it draws. -/
theorem everyFrameIsAnswered : Obligations.EveryFrameIsAnswered := by
  rintro s f rest ⟨ht, -⟩ hr he hc hentropy
  cases hd : decode f with
  | error e => exact ⟨_, _, step_of_decode_error hr he hc hd, rfl, rfl, rfl⟩
  | ok i =>
    obtain ⟨s', hx⟩ := exec_of_built i (s := { s with commandIn := rest }) (ensureTables_built ht)
    have havail : 3825 ≤ (State.available { s with commandIn := rest }).length := by
      simpa [State.available, he] using hentropy
    have hidle : s'.executor = .idle := exec_idle_of_enough (decode_wf hd) havail hx
    obtain ⟨hin, ⟨-, r, hout⟩ | ⟨hbusy, -⟩⟩ := exec_answers_or_waits hx
    · exact ⟨s', r, (stepRunsTheDecodedCommand s f rest i hr he hc hd).trans hx, hidle, hin, hout⟩
    · exact absurd hidle hbusy

end Sys2Proof.Machine
